-- ==== Sys2Proof/Word.lean ====
section
/-!
DEFINITION. The sizes of the block (R3, R5, R31, R46). A multi-byte quantity is a vector of bytes whose element 0 is the
first byte in the document's listing order; it is never an integer (R5, R30).
-/
namespace Sys2Proof

/-- A byte: 8 bits, bit 7 the most significant (R5). -/
abbrev Byte := BitVec 8

/-- A window offset: 6 bits, 0x00 to 0x3F (R31). -/
abbrev Offset := BitVec 6

/-- A `BUS15` transaction word: `WE` [14], `OFF` [13:8], `WDATA` [7:0] (R46). -/
abbrev BusWord := BitVec 15

/-- A shift: 4 bits, 0 to 15 (R3, R14). -/
abbrev Shift := BitVec 4

/-- An address: `ADDR_BYTES = 8` bytes (R3). -/
abbrev Address := Vector Byte 8

/-- A seed or a key: `BLOCK_BYTES = 16` bytes (R3). -/
abbrev Block := Vector Byte 16

end Sys2Proof
end

