-- ==== Sys2Proof/Machine/Flags.lean ====
section
/-!
DEFINITION. The flags: the byte `STATUS` shows (R15) and what a search leaves in `MATCH` and `SHIFT` (R16, R75). Setting
`ERR_CMD` is the raising of the exception, in Machine/Ops.lean (R17, R87).
-/
namespace Sys2Proof.Machine

/-- `(ERR_CMD << 1) | MATCH` (R15): bits 7:2 are zero. -/
def statusByte (matched errCmd : Bool) : Byte :=
  ((BitVec.ofBool errCmd).setWidth 8 <<< 1) ||| (BitVec.ofBool matched).setWidth 8

/-- `MATCH` after a search: 1 on a match, 0 on none (R16, R75). -/
def matchAfter (found : Option Shift) : Bool := found.isSome

/-- `SHIFT` after a search: the shift found, or the old value on no match (R75, R100). -/
def shiftAfter (found : Option Shift) (old : Shift) : Shift := found.getD old

end Sys2Proof.Machine
end

