-- ==== Sys2Proof/Machine/Operands.lean ====
section
/-!
DEFINITION. The primitives on byte vectors (R6), the document's three functions over them (R65, R66, R75), and the period of a
seed (R78). All index arithmetic is on natural numbers (R6, R68).
-/
namespace Sys2Proof.Machine

/-- `dup(A)[i] = A[i mod 8]` (R6): the address repeated twice. -/
def dup (a : Address) : Block := Vector.ofFn fun i => a[i.val % 8]

/-- `rotl(V, s)[i] = V[(i + s) mod 16]` (R6): byte `s` comes to the front. -/
def rotl (v : Block) (s : Nat) : Block := Vector.ofFn fun i => v[(i.val + s) % 16]

/-- `rotr(V, s)[i] = V[(i + 16 - s) mod 16]`, for `s` at most 16 (R6). -/
def rotr (v : Block) (s : Nat) : Block := Vector.ofFn fun i => v[(i.val + 16 - s) % 16]

/-- `xor16(V, W)[i] = V[i] XOR W[i]` (R6). -/
def xor16 (v w : Block) : Block := Vector.ofFn fun i => v[i] ^^^ w[i]

/-- `eq16(V, W)`: true iff the sixteen bytes agree (R6). -/
def eq16 (v w : Block) : Bool := decide (∀ i : Fin 16, v[i] = w[i])

/-- `compute_key(address, seed, shift)` (R65). -/
def computeKey (a : Address) (seed : Block) (s : Nat) : Block := xor16 (rotl seed s) (dup a)

/-- `compute_seed(address, key, shift)` (R66): the XOR comes before the rotation. -/
def computeSeed (a : Address) (key : Block) (s : Nat) : Block := rotr (xor16 key (dup a)) s

/-- `find_key_shift(address, key, seed)` (R75, R76): the first of 0, 1, ..., 15 that fits, or nothing for "no match". -/
def findKeyShift (a : Address) (key seed : Block) : Option Shift :=
  ((List.range 16).find? fun s => eq16 (computeSeed a key s) seed).map (BitVec.ofNat 4)

/-- `period(V)`: the least `p` in 1, 2, 4, 8, 16 with `rotl(V, p) = V` (R78). Rotating by 16 gives `V` back always. -/
def period (v : Block) : Nat := ([1, 2, 4, 8].find? fun p => eq16 (rotl v p) v).getD 16

/-- The 4-bit field a host write stores in `SHIFT`: `v[3:0]` (R14, R36). -/
def shiftField (v : Byte) : Shift := v.extractLsb' 0 4

/-- `zext_8(SHIFT)` (R8, R14): bits 7:4 read 0. -/
def shiftByte (s : Shift) : Byte := s.setWidth 8

end Sys2Proof.Machine
end

