-- ==== Sys2Proof/Config.lean ====
section
/-!
DEFINITION. The three open parameters of the spec (R4, D2), each without a body, so that no proof can see its value.
-/
namespace Sys2Proof

/-- The two readings of a colon-separated address text (R4, R56). -/
inductive AddrTextOrder where
  /-- `ADDR[i]` is the i-th byte of the text. -/
  | asWritten
  /-- `ADDR[i]` is byte 7 - i of the text. -/
  | reversed
  deriving DecidableEq, Repr, Inhabited

/-- The operations `LATENCY` is indexed by (R4, R108). -/
inductive CommandOp where
  | ckey
  | cseed
  | fshift
  deriving DecidableEq, Repr

/-- `BASE`: where the 64-byte window sits in the host's address space (R4, R38; log 6). -/
opaque Config.base : Nat

/-- `ADDR_TEXT_ORDER`: acts only in the assembler's `LDADDRTXT` (R4, R56; log 7). -/
opaque Config.addrTextOrder : AddrTextOrder

/-- `LATENCY(op)`: how long the host's command write is held; no rule and no definition reads it (R108; log 8). -/
opaque Config.latency : CommandOp → Nat

end Sys2Proof
end

