-- ==== Sys2Proof/Syntax.lean ====
section
/-!
DEFINITION. The instructions: one constructor per row of spec/opcode_table.json (R45, R53).
-/
namespace Sys2Proof

/-- The five things a transaction can ask of the block (R45). A write of any other byte to `CMD` is an illegal command
(R51), which has no mnemonic and is no instruction; the decoder names it (`Decoded.illegalCommand`). -/
inductive Instr where
  /-- `HRD off`: host read of one byte (R60). -/
  | hrd (off : Offset)
  /-- `HWR off, v`: host write of one byte to an offset other than `CMD` (R61). -/
  | hwr (off : Offset) (v : Byte)
  /-- `CKEY`: the document's `compute_key` (R65). -/
  | ckey
  /-- `CSEED`: the document's `compute_seed` (R66). -/
  | cseed
  /-- `FSHIFT`: the document's `find_key_shift` (R75). -/
  | fshift
  deriving DecidableEq, Repr

end Sys2Proof
end

