-- ==== Sys2Proof/WellFormed.lean ====
section
/-!
DEFINITION. Which instructions have an encoding of their own: every one but `HWR` to `CMD`, whose words are the commands and
the illegal commands (R53, R61).
-/
namespace Sys2Proof

/-- The constraint column of the opcode table: `HWR` has `OFF != 0x0A`; nothing else is constrained. -/
def Instr.wellFormed : Instr → Bool
  | .hrd _ => true
  | .hwr off _ => off != 0x0A#6
  | .ckey => true
  | .cseed => true
  | .fshift => true

end Sys2Proof
end

