-- ==== Sys2Proof/Decode.lean ====
section
/-!
DEFINITION. Decoding a `BUS15` word, total with exactly six outcomes (R47), and the encoder of R53 beside it.
-/
namespace Sys2Proof

/-- What a transaction word is: one of the five instructions, or the sixth outcome of R47. -/
inductive Decoded where
  /-- The word is this instruction. -/
  | instr (i : Instr)
  /-- A write to `CMD` of a byte that names no operation (R47, R51). -/
  | illegalCommand (v : Byte)
  deriving DecidableEq, Repr

/-- Why a number is no instruction. -/
inductive DecodeError where
  /-- The number does not fit in the 15 bits of a word: bit 15 does not exist and is written 0 (R46; log 4). -/
  | wordTooWide
  /-- The word is an illegal command, which the machine runs but which is no instruction (R51, R54). -/
  | illegalCommand (v : Byte)
  deriving DecidableEq, Repr

/-- `WE`, bit 14 of a word (R46). -/
def wordWE (w : BusWord) : Bool := w.getLsbD 14

/-- `OFF`, bits 13:8 of a word (R46). -/
def wordOff (w : BusWord) : Offset := w.extractLsb' 8 6

/-- `WDATA`, bits 7:0 of a word (R46). -/
def wordData (w : BusWord) : Byte := w.extractLsb' 0 8

/-- The word with the three given fields: `(WE << 14) | (OFF << 8) | WDATA` (R46). -/
def busWord (we : Bool) (off : Offset) (v : Byte) : BusWord :=
  ((BitVec.ofBool we).setWidth 15 <<< 14) ||| (off.setWidth 15 <<< 8) ||| v.setWidth 15

/-- The command code table (R50): all eight bits are compared (R49). -/
def decodeCommand (v : Byte) : Decoded :=
  if v = 0x01#8 then .instr .ckey
  else if v = 0x02#8 then .instr .cseed
  else if v = 0x03#8 then .instr .fshift
  else .illegalCommand v

/-- The cases of R47, tested in its order. -/
def decode (w : BusWord) : Decoded :=
  if wordWE w = false then .instr (.hrd (wordOff w))
  else if wordOff w ≠ 0x0A#6 then .instr (.hwr (wordOff w) (wordData w))
  else decodeCommand (wordData w)

/-- The canonical word of an instruction (R53); a read is written with `WDATA` = 0x00 (R48). -/
def encode : Instr → BusWord
  | .hrd off => busWord false off 0x00#8
  | .hwr off v => busWord true off v
  | .ckey => busWord true 0x0A#6 0x01#8
  | .cseed => busWord true 0x0A#6 0x02#8
  | .fshift => busWord true 0x0A#6 0x03#8

/-- The instruction a number stands for, or why it is none (log 4). -/
def decodeNumber (n : Nat) : Except DecodeError Instr :=
  if n < 2 ^ 15 then
    match decode (BitVec.ofNat 15 n) with
    | .instr i => .ok i
    | .illegalCommand v => .error (.illegalCommand v)
  else .error .wordTooWide

/-- The host's view of the decoder: the `nbits` low bits of `w`, the bits above them zero, as one number (log 4). -/
def decodeTableWord (nbits w : Nat) : Option Instr := (decodeNumber (w % 2 ^ nbits)).toOption

end Sys2Proof
end

