-- ==== Sys2Proof/Machine/State.lean ====
section
/-!
DEFINITION. The state: the engine's tuple of R10 and, kept apart from it, the two sides of the host port (log 1, log 2).
-/
namespace Sys2Proof.Machine

/-- The complete architectural state of the engine, 326 bits (R10). Nothing else persists from one step to the next. -/
structure Engine where
  /-- `ADDR` (R11). -/
  addr : Address
  /-- `SEED` (R12). -/
  seed : Block
  /-- `KEY` (R13). -/
  key : Block
  /-- `SHIFT` (R14). -/
  shift : Shift
  /-- `MATCH` (R16). -/
  matched : Bool
  /-- `ERR_CMD` (R17). -/
  errCmd : Bool
  deriving DecidableEq, Repr

/-- One thing the host can do to the block in one step (R7). -/
inductive HostEvent where
  /-- Present a transaction word (R45, R46). -/
  | transaction (w : BusWord)
  /-- Assert the reset input (R95). -/
  | reset
  deriving DecidableEq, Repr

/-- The host port: what the host has still to issue, oldest first (R41; log 1), and the response of the latest step, a byte
for a read and nothing for a write or a reset (R46, R60; log 2). No part of the engine's state (R10, R21). -/
structure Port where
  pending : List HostEvent
  rdata : Option Byte
  deriving DecidableEq, Repr

/-- The machine: the engine and the port through which the host reaches it. -/
structure State where
  engine : Engine
  port : Port
  deriving DecidableEq, Repr

/-- No step of the block ends in a fault (R84, R85): the type has no constructor. -/
inductive Fault where
  deriving DecidableEq, Repr

/-- Why a step has no successor. -/
inductive Refusal where
  /-- Raised by an arm of exec for an instruction without a meaning; no arm raises it. Safe. -/
  | notModelled (mnemonic : String)
  /-- Raised by step when the host has issued nothing: a step of the machine is one transaction or one reset (R7), so there
  is none to take. No instruction raises it. Safe (log 3). -/
  | noHostEvent
  deriving DecidableEq, Repr

/-- The reset values of R22 and R95. -/
def Engine.reset : Engine where
  addr := Vector.replicate 8 0x00#8
  seed := Vector.replicate 16 0x00#8
  key := Vector.replicate 16 0x00#8
  shift := 0#4
  matched := false
  errCmd := false

/-- The machine right after reset (R95): the host has issued nothing (log 1) and there is no response (log 2). -/
def State.reset : State where
  engine := Engine.reset
  port := { pending := [], rdata := none }

end Sys2Proof.Machine
end

