-- ==== Sys2Proof/Machine/Ops.lean ====
section
/-!
DEFINITION. The named operations on the state: register updates, the three commands, taking the one exception, the window
primitives `RegRead` and `RegWrite` (R34, R35), the response of a step, and the host's queue of events. The right-hand side of
every update reads the values at the start of the step (R8).
-/
namespace Sys2Proof.Machine

/-! Register updates. -/

/-- `ADDR[i] <- v`. -/
def Engine.setAddrByte (e : Engine) (i : Fin 8) (v : Byte) : Engine := { e with addr := e.addr.set i v }

/-- `SEED[i] <- v`. -/
def Engine.setSeedByte (e : Engine) (i : Fin 16) (v : Byte) : Engine := { e with seed := e.seed.set i v }

/-- `KEY[i] <- v`. -/
def Engine.setKeyByte (e : Engine) (i : Fin 16) (v : Byte) : Engine := { e with key := e.key.set i v }

/-- `SEED <- v`. -/
def Engine.setSeed (e : Engine) (v : Block) : Engine := { e with seed := v }

/-- `KEY <- v`. -/
def Engine.setKey (e : Engine) (v : Block) : Engine := { e with key := v }

/-- `SHIFT <- v`. -/
def Engine.setShift (e : Engine) (v : Shift) : Engine := { e with shift := v }

/-- `MATCH <- b` (R16: only a search and reset write it). -/
def Engine.setMatch (e : Engine) (b : Bool) : Engine := { e with matched := b }

/-- `ERR_CMD <- 1` (R17). -/
def Engine.setErrCmd (e : Engine) : Engine := { e with errCmd := true }

/-! Taking the exception. -/

/-- `raise IllegalCommand(v)` (R8, R87): `ERR_CMD <- 1` and nothing else; the byte is not recorded. There is no vector, no
saved state and no mode, and so no return from it either (R91). -/
def raiseIllegalCommand (_v : Byte) (e : Engine) : Engine := e.setErrCmd

/-! The operations (R65, R66, R75). -/

/-- `KEY <- xor16(rotl(SEED, SHIFT), dup(ADDR))` (R65). -/
def deriveKey (e : Engine) : Engine := e.setKey (computeKey e.addr e.seed e.shift.toNat)

/-- `SEED <- rotr(xor16(KEY, dup(ADDR)), SHIFT)` (R66). -/
def recoverSeed (e : Engine) : Engine := e.setSeed (computeSeed e.addr e.key e.shift.toNat)

/-- The search of R75: `MATCH` always, `SHIFT` only on a match. -/
def searchShift (e : Engine) : Engine :=
  let found := findKeyShift e.addr e.key e.seed
  (e.setShift (shiftAfter found e.shift)).setMatch (matchAfter found)

/-- `Command(v)`, the effect of writing `v` to `CMD` (R50, R51). -/
def command (v : Byte) (e : Engine) : Engine :=
  if v = 0x01#8 then deriveKey e
  else if v = 0x02#8 then recoverSeed e
  else if v = 0x03#8 then searchShift e
  else raiseIllegalCommand v e

/-! The register window. -/

/-- `RegRead(off)` (R34). -/
def regRead (off : Offset) (e : Engine) : Byte :=
  let n := off.toNat
  if h : n ≤ 0x07 then e.addr[n]
  else if n = 0x08 then shiftByte e.shift
  else if n = 0x09 then statusByte e.matched e.errCmd
  else if n = 0x0A then 0x00#8
  else if n ≤ 0x0F then 0x00#8
  else if h : 0x10 ≤ n ∧ n ≤ 0x1F then e.seed[n - 0x10]
  else if h : 0x20 ≤ n ∧ n ≤ 0x2F then e.key[n - 0x20]
  else 0x00#8

/-- `RegWrite(off, v)` (R35). -/
def regWrite (off : Offset) (v : Byte) (e : Engine) : Engine :=
  let n := off.toNat
  if h : n ≤ 0x07 then e.setAddrByte ⟨n, by omega⟩ v
  else if n = 0x08 then e.setShift (shiftField v)
  else if n = 0x09 then e
  else if n = 0x0A then command v e
  else if n ≤ 0x0F then e
  else if h : 0x10 ≤ n ∧ n ≤ 0x1F then e.setSeedByte ⟨n - 0x10, by omega⟩ v
  else if h : 0x20 ≤ n ∧ n ≤ 0x2F then e.setKeyByte ⟨n - 0x20, by omega⟩ v
  else e

/-! The end of a step. -/

/-- A read ends: the response is the byte read and the engine is as before (R46, R60). -/
def State.respond (s : State) (v : Byte) : State where
  engine := s.engine
  port := { pending := s.port.pending, rdata := some v }

/-- A write or a reset ends: the engine is updated and there is no response (R46, U7; log 2). -/
def State.update (s : State) (f : Engine → Engine) : State where
  engine := f s.engine
  port := { pending := s.port.pending, rdata := none }

/-- The reset event (R95): every register takes its reset value, whatever it held. -/
def State.takeReset (s : State) : State := s.update fun _ => Engine.reset

/-! The host's events. -/

/-- The state with these events to be issued, and nothing else changed. -/
def State.withPending (s : State) (evs : List HostEvent) : State where
  engine := s.engine
  port := { pending := evs, rdata := s.port.rdata }

/-- The next event the host issues, and the state with that event taken off the list (R41; log 1). -/
def State.nextEvent? (s : State) : Option (HostEvent × State) :=
  match s.port.pending with
  | [] => none
  | ev :: rest => some (ev, s.withPending rest)

/-- The host issues these events next, before anything already pending. -/
def State.issueFirst (s : State) (evs : List HostEvent) : State :=
  s.withPending (evs ++ s.port.pending)

/-- The host issues these events after everything already pending. -/
def State.issue (s : State) (evs : List HostEvent) : State :=
  s.withPending (s.port.pending ++ evs)

end Sys2Proof.Machine
end

