-- ==== Sys2Proof/Machine/Derive.lean ====
section
/-!
DEFINITION. The derive and invert commands (41_derive.md).
-/
namespace Sys2Proof.Machine

/-- `CKEY` (R65). -/
def execCkey (s : State) : Host.Outcome State Fault Refusal := .next (s.update deriveKey)

/-- `CSEED` (R66). -/
def execCseed (s : State) : Host.Outcome State Fault Refusal := .next (s.update recoverSeed)

end Sys2Proof.Machine
end

