-- ==== Sys2Proof/Machine/HostAccess.lean ====
section
/-!
DEFINITION. The host access instructions (40_host_access.md).
-/
namespace Sys2Proof.Machine

/-- `HRD off`: `RDATA <- RegRead(off)`, no state change, for any offset (R60). -/
def execHrd (off : Offset) (s : State) : Host.Outcome State Fault Refusal :=
  .next (s.respond (regRead off s.engine))

/-- `HWR off, v`: `RegWrite(off, v)`, for any offset and value (R61). At `CMD`, where no word decodes to `HWR`, it is R35's
`Command(v)` all the same (log 5). -/
def execHwr (off : Offset) (v : Byte) (s : State) : Host.Outcome State Fault Refusal :=
  .next (s.update (regWrite off v))

end Sys2Proof.Machine
end

