-- ==== Sys2Proof/Machine/Search.lean ====
section
/-!
DEFINITION. The shift search command (42_search.md).
-/
namespace Sys2Proof.Machine

/-- `FSHIFT` (R75). -/
def execFshift (s : State) : Host.Outcome State Fault Refusal := .next (s.update searchShift)

end Sys2Proof.Machine
end

