-- ==== Sys2Proof/Machine/Dispatch.lean ====
section
/-!
DEFINITION. One arm per instruction.
-/
namespace Sys2Proof.Machine

def exec (i : Instr) (s : State) : Host.Outcome State Fault Refusal :=
  match i with
  | .hrd off => Sys2Proof.Machine.execHrd off s
  | .hwr off v => Sys2Proof.Machine.execHwr off v s
  | .ckey => Sys2Proof.Machine.execCkey s
  | .cseed => Sys2Proof.Machine.execCseed s
  | .fshift => Sys2Proof.Machine.execFshift s

end Sys2Proof.Machine
end

