-- ==== Sys2Proof/Machine/Transact.lean ====
section
/-!
DEFINITION. What one host event does: run the decoded instruction, raise the illegal command, or reset (R7, R47, R95).
-/
namespace Sys2Proof.Machine

/-- Run a decoded transaction (R47): an illegal command raises its exception and the step completes (R87, R91). -/
def runDecoded (d : Decoded) (s : State) : Host.Outcome State Fault Refusal :=
  match d with
  | .instr i => exec i s
  | .illegalCommand v => .next (s.update (raiseIllegalCommand v))

/-- Run one host event: one atomic step (R7). -/
def runEvent (ev : HostEvent) (s : State) : Host.Outcome State Fault Refusal :=
  match ev with
  | .transaction w => runDecoded (decode w) s
  | .reset => .next s.takeReset

/-- One step: take the host's next event and run it; with none issued there is no step (R7; log 3). -/
def runNext (s : State) : Host.Outcome State Fault Refusal :=
  match s.nextEvent? with
  | none => .refused .noHostEvent
  | some (ev, s') => runEvent ev s'

/-- `s` with the transaction `w`, cut to `nbits` bits, as the very next thing the host issues (log 1, log 4). -/
def State.withNextWord (s : State) (nbits w : Nat) : State :=
  s.issueFirst [.transaction (BitVec.ofNat 15 (w % 2 ^ nbits))]

end Sys2Proof.Machine
end

