-- ==== Sys2Proof/Machine/Step.lean ====
section
/-!
DEFINITION. The step function and the host's way to place an instruction (log 1).
-/
namespace Sys2Proof.Machine

/-- One step of the machine (R7): see `runNext`. -/
def step (s : State) : Host.Outcome State Fault Refusal := runNext s

/-- `s` with one transaction issued first, so that the next step runs exactly it. -/
def State.withFetchWord (s : State) (nbits w : Nat) : State := s.withNextWord nbits w

end Sys2Proof.Machine
end

