-- ==== Sys2Proof/Machine/Platform.lean ====
section
/-!
DEFINITION. What the platform puts between the host and the block: the address decoder with its base (R38), the choice between
reset and a coinciding transaction (R90), and the host's view of a run, which collects the bytes that reads return (R46).
-/
namespace Sys2Proof.Machine

/-- The window offset a host address reaches, or none where the access does not select the block (R38; log 6). -/
def selectOffset (base hostAddr : Nat) : Option Offset :=
  if base ≤ hostAddr ∧ hostAddr < base + 64 then some (BitVec.ofNat 6 (hostAddr - base)) else none

/-- The event a host access becomes: a transaction inside the window, nothing outside it (R38, U10). -/
def accessEvents (base hostAddr : Nat) (we : Bool) (v : Byte) : List HostEvent :=
  match selectOffset base hostAddr with
  | some off => [.transaction (busWord we off v)]
  | none => []

/-- The host issues an access at an address of its own address space; outside the window the block's state is untouched. -/
def State.issueAccess (s : State) (hostAddr : Nat) (we : Bool) (v : Byte) : State :=
  s.issue (accessEvents Config.base hostAddr we v)

/-- What the block sees when the platform presents a reset and a transaction at once: reset wins and the transaction has no
effect (R90, U14; log 9). -/
def coincide (resetAsserted : Bool) (presented : Option BusWord) : List HostEvent :=
  if resetAsserted then [.reset] else (presented.map HostEvent.transaction).toList

/-- Run `k` steps and collect, in order, the bytes the reads among them return; nothing if a step has no successor. -/
def runHost : Nat → State → Option (State × List Byte)
  | 0, s => some (s, [])
  | k + 1, s =>
    match step s with
    | .next s' => (runHost k s').map fun r => (r.1, s'.port.rdata.toList ++ r.2)
    | .fault _ => none
    | .refused _ => none

/-- The host issues a list of events first and runs exactly them. -/
def runProgram (evs : List HostEvent) (s : State) : Option (State × List Byte) := runHost evs.length (s.issueFirst evs)

end Sys2Proof.Machine
end

