-- ==== Sys2Proof/Machine/Assembler.lean ====
section
/-!
DEFINITION. The assembler's lines, the expansions of its pseudo-instructions (R54, R55, R56) and the document's three calls as
host programs (R57). Nothing here is inside the block (R56).
-/
namespace Sys2Proof.Machine

/-- The two registers `LD16` and `RD16` name (R55). -/
inductive BlockReg where
  | seed
  | key
  deriving DecidableEq, Repr

/-- One line of the assembler (R54, R55, R56). -/
inductive AsmLine where
  | hrd (off : Offset)
  | hwr (off : Offset) (v : Byte)
  | ckey
  | cseed
  | fshift
  | reset
  | word (w : BusWord)
  | ld8 (bs : Address)
  | ld16 (r : BlockReg) (bs : Block)
  | ldshift (n : Shift)
  | rd8
  | rd16 (r : BlockReg)
  | rdshift
  | rdstatus
  | ldaddrtxt (ts : Address)
  deriving DecidableEq, Repr

/-- The transaction of one instruction. -/
def instrEvent (i : Instr) : HostEvent := .transaction (encode i)

/-- The window offset of byte 0 of a 16-byte register (R33). -/
def BlockReg.base : BlockReg → Nat
  | .seed => 0x10
  | .key => 0x20

/-- `LD8 ADDR, b0 ... b7`: eight writes in ascending order (R55). -/
def expandLd8 (bs : Address) : List HostEvent :=
  (List.finRange 8).map fun i => instrEvent (.hwr (BitVec.ofNat 6 i.val) bs[i])

/-- `LD16 SEED/KEY, b0 ... b15`: sixteen writes in ascending order (R55). -/
def expandLd16 (r : BlockReg) (bs : Block) : List HostEvent :=
  (List.finRange 16).map fun i => instrEvent (.hwr (BitVec.ofNat 6 (r.base + i.val)) bs[i])

/-- `RD8 ADDR`: eight reads in ascending order (R55). -/
def expandRd8 : List HostEvent := (List.range 8).map fun i => instrEvent (.hrd (BitVec.ofNat 6 i))

/-- `RD16 SEED/KEY`: sixteen reads in ascending order (R55). -/
def expandRd16 (r : BlockReg) : List HostEvent :=
  (List.range 16).map fun i => instrEvent (.hrd (BitVec.ofNat 6 (r.base + i)))

/-- The eight bytes of `ADDR` an address text stands for (R56). -/
def addrOfText (order : AddrTextOrder) (ts : Address) : Address :=
  match order with
  | .asWritten => ts
  | .reversed => Vector.ofFn fun i => ts[7 - i.val]

/-- What a line expands to (R54, R55, R56). -/
def AsmLine.expand (order : AddrTextOrder) : AsmLine → List HostEvent
  | .hrd off => [instrEvent (.hrd off)]
  | .hwr off v => [instrEvent (.hwr off v)]
  | .ckey => [instrEvent .ckey]
  | .cseed => [instrEvent .cseed]
  | .fshift => [instrEvent .fshift]
  | .reset => [.reset]
  | .word w => [.transaction w]
  | .ld8 bs => expandLd8 bs
  | .ld16 r bs => expandLd16 r bs
  | .ldshift n => [instrEvent (.hwr 0x08#6 (n.setWidth 8))]
  | .rd8 => expandRd8
  | .rd16 r => expandRd16 r
  | .rdshift => [instrEvent (.hrd 0x08#6)]
  | .rdstatus => [instrEvent (.hrd 0x09#6)]
  | .ldaddrtxt ts => expandLd8 (addrOfText order ts)

/-- A program is the expansions of its lines, one after the other. -/
def assemble (order : AddrTextOrder) (ls : List AsmLine) : List HostEvent := ls.flatMap (AsmLine.expand order)

/-- `compute_key(address, seed, shift)` as a host program (R57). -/
def callComputeKey (a : Address) (seed : Block) (s : Shift) : List AsmLine :=
  [.ld8 a, .ld16 .seed seed, .ldshift s, .ckey, .rd16 .key]

/-- `compute_seed(address, key, shift)` as a host program (R57). -/
def callComputeSeed (a : Address) (key : Block) (s : Shift) : List AsmLine :=
  [.ld8 a, .ld16 .key key, .ldshift s, .cseed, .rd16 .seed]

/-- `find_key_shift(address, key, seed)` as a host program (R57). -/
def callFindKeyShift (a : Address) (key seed : Block) : List AsmLine :=
  [.ld8 a, .ld16 .key key, .ld16 .seed seed, .fshift, .rdstatus, .rdshift]

/-- The result line of `find_key_shift` in R57: if `STATUS` bit 0 is 1 then the shift read, else "no match". -/
def searchResult : List Byte → Option Shift
  | [status, shift] => if status.getLsbD 0 then some (shiftField shift) else none
  | _ => none

end Sys2Proof.Machine
end

