-- ==== Sys2Proof/Safety.lean ====
section
/-!
DEFINITION. What the claims about runs speak of: which host events are illegal commands, or operand writes, and the two
conditions on a state that a step keeps.
-/
namespace Sys2Proof.Machine

/-- The host writes an undefined code to `CMD`, against its duty in the table of R93 (R51). -/
def HostEvent.isIllegal : HostEvent → Bool
  | .transaction w =>
    match decode w with
    | .illegalCommand _ => true
    | .instr _ => false
  | .reset => false

/-- The event is the transaction of this instruction. -/
def HostEvent.isInstr (i : Instr) : HostEvent → Bool
  | .transaction w => decode w == .instr i
  | .reset => false

/-- The offset holds a byte of an operand register: `ADDR`, `SHIFT`, `SEED` or `KEY` (R33). -/
def operandOffset (off : Offset) : Bool :=
  let n := off.toNat
  n ≤ 0x08 || (0x10 ≤ n && n ≤ 0x2F)

/-- The event is a host write into an operand register (R35, R61). -/
def HostEvent.writesOperand : HostEvent → Bool
  | .transaction w =>
    match decode w with
    | .instr (.hwr off _) => operandOffset off
    | _ => false
  | .reset => false

/-- No rule lets the event write what `off` reads as, in any state: a read; a write to another offset or to one whose writes are
ignored (R35, R37); `CKEY` outside `KEY` (R65); `CSEED` outside `SEED` (R66); `FSHIFT` outside `SHIFT`, which it writes on a match,
and `STATUS`, which shows `MATCH` (R75); an illegal command outside `STATUS`, which shows `ERR_CMD` (R51). Reset writes all. -/
def HostEvent.leavesByte (off : Offset) : HostEvent → Bool
  | .transaction w =>
    match decode w with
    | .instr (.hrd _) => true
    | .instr (.hwr off' _) => off' != off || !operandOffset off'
    | .instr .ckey => !(0x20 ≤ off.toNat && off.toNat ≤ 0x2F)
    | .instr .cseed => !(0x10 ≤ off.toNat && off.toNat ≤ 0x1F)
    | .instr .fshift => off != 0x08#6 && off != 0x09#6
    | .illegalCommand _ => off != 0x09#6
  | .reset => false

/-- No illegal command recorded and none to come: the host of R107. -/
abbrev State.ErrFree (s : State) : Prop :=
  s.engine.errCmd = false ∧ ∀ ev ∈ s.port.pending, ev.isIllegal = false

/-- `KEY` is the key of `ADDR`, `SEED` and `SHIFT` (the relation of R22 and R80). -/
abbrev Engine.KeyConsistent (e : Engine) : Prop :=
  e.key = computeKey e.addr e.seed e.shift.toNat

/-- The registers are consistent and the host is done writing operands. By R23 this is no invariant without the second part. -/
abbrev State.Consistent (s : State) : Prop :=
  s.engine.KeyConsistent ∧ ∀ ev ∈ s.port.pending, ev.writesOperand = false

end Sys2Proof.Machine
end

