-- ==== Sys2Proof/Certificates/Slice0/Obligations.lean ====
section
/-!
DEFINITION. The statements for the provers. An event's effect is stated with `runEvent`, an instruction's with `exec`; the first
two statements tie both to `step`. A docstring names the rule of spec/ a statement formalises, or, for basis 'derived', the
spec's own inference or the log entry it rests on.
-/
open Sys2Proof Sys2Proof.Machine

/-! ## The step -/

/-- A step takes the next host event off the list and runs it; a transaction whose word decodes to an instruction is that
instruction's `exec`. The list is the model's field (log 1). -/
def Obligations.StepRunsTheDecodedInstruction : Prop :=
  ∀ (s : State) (w : BusWord) (rest : List HostEvent) (i : Instr),
    s.port.pending = .transaction w :: rest → decode w = .instr i →
      i.wellFormed = true ∧ step s = exec i (s.withPending rest)

/-- The other two shapes of a step: an illegal command completes with the exception raised, reset takes its step; and with
nothing issued there is no step (log 1, log 2, log 3). -/
def Obligations.StepRunsTheOtherHostEvents : Prop :=
  (∀ (s : State) (w : BusWord) (rest : List HostEvent) (v : Byte),
    s.port.pending = .transaction w :: rest → decode w = .illegalCommand v →
      step s = .next
        { engine := { s.engine with errCmd := true }, port := { pending := rest, rdata := none } }) ∧
  (∀ (s : State) (rest : List HostEvent),
    s.port.pending = .reset :: rest →
      step s = .next { engine := Engine.reset, port := { pending := rest, rdata := none } }) ∧
  (∀ s : State, s.port.pending = [] → step s = .refused .noHostEvent)

/-- Placing a word with `withFetchWord` makes the very next step run its instruction on the state as it was (log 1, log 4). -/
def Obligations.PlacedWordRunsNext : Prop :=
  ∀ (s : State) (n : Nat) (i : Instr),
    decodeTableWord 16 n = some i → step (s.withFetchWord 16 n) = exec i s

/-- Every event completes: no step faults, is refused, or waits, from any state (R84, R85, inferences of the spec), and the
response is a byte for a read and nothing otherwise (R46; for reset it is the model's choice, log 2). -/
def Obligations.EveryHostEventCompletes : Prop :=
  ∀ (ev : HostEvent) (s : State),
    ∃ t, runEvent ev s = .next t ∧ t.port.pending = s.port.pending ∧
      (t.port.rdata.isSome = true ↔ ∃ off, ev.isInstr (.hrd off) = true)

/-- However many events the host has issued, the machine runs them all, from any state (R84, an inference of the spec). -/
def Obligations.EveryRunOfIssuedEventsCompletes : Prop :=
  ∀ s : State, ∃ t bs, runHost s.port.pending.length s = some (t, bs) ∧ t.port.pending = []

/-! ## Encoding -/

/-- Words of table V7 and of R47 decode as the spec says. -/
def Obligations.SampleWordsDecode : Prop :=
  decode 0x0000#15 = .instr (.hrd 0x00#6) ∧ decode 0x3F00#15 = .instr (.hrd 0x3F#6) ∧
  decode 0x0A01#15 = .instr (.hrd 0x0A#6) ∧ decode 0x4000#15 = .instr (.hwr 0x00#6 0x00#8) ∧
  decode 0x4901#15 = .instr (.hwr 0x09#6 0x01#8) ∧ decode 0x4A01#15 = .instr .ckey ∧
  decode 0x4A02#15 = .instr .cseed ∧ decode 0x4A03#15 = .instr .fshift ∧
  decode 0x4A00#15 = .illegalCommand 0x00#8 ∧ decode 0x4A81#15 = .illegalCommand 0x81#8 ∧
  decode 0x4B01#15 = .instr (.hwr 0x0B#6 0x01#8) ∧ decode 0x7FFF#15 = .instr (.hwr 0x3F#6 0xFF#8)

/-- R47, its case list over the fields of a word and its match/mask form. -/
def Obligations.EveryWordHasOneOfSixOutcomes : Prop :=
  (∀ w : BusWord,
    let off : Offset := BitVec.ofNat 6 (w.toNat / 256)
    let v : Byte := BitVec.ofNat 8 w.toNat
    decode w =
      if w.toNat < 0x4000 then .instr (.hrd off)
      else if off ≠ 0x0A#6 then .instr (.hwr off v)
      else if v = 0x01#8 then .instr .ckey
      else if v = 0x02#8 then .instr .cseed
      else if v = 0x03#8 then .instr .fshift
      else .illegalCommand v) ∧
  (∀ w : BusWord,
    ((∃ off, decode w = .instr (.hrd off)) ↔ w &&& 0x4000#15 = 0x0000#15) ∧
    ((∃ off v, decode w = .instr (.hwr off v)) ↔ w &&& 0x4000#15 = 0x4000#15 ∧ w &&& 0x3F00#15 ≠ 0x0A00#15) ∧
    (decode w = .instr .ckey ↔ w &&& 0x7FFF#15 = 0x4A01#15) ∧
    (decode w = .instr .cseed ↔ w &&& 0x7FFF#15 = 0x4A02#15) ∧
    (decode w = .instr .fshift ↔ w &&& 0x7FFF#15 = 0x4A03#15) ∧
    ((∃ v, decode w = .illegalCommand v) ↔
      w &&& 0x7F00#15 = 0x4A00#15 ∧ w &&& 0x7FFF#15 ≠ 0x4A01#15 ∧ w &&& 0x7FFF#15 ≠ 0x4A02#15 ∧
        w &&& 0x7FFF#15 ≠ 0x4A03#15))

/-- R53: the list of instructions is complete, and each has the hexadecimal word of its row. -/
def Obligations.OpcodeMapWords : Prop :=
  (∀ off : Offset, (encode (.hrd off)).toNat = off.toNat <<< 8) ∧
  (∀ (off : Offset) (v : Byte), off ≠ 0x0A#6 →
    (encode (.hwr off v)).toNat = 0x4000 ||| (off.toNat <<< 8) ||| v.toNat) ∧
  encode .ckey = 0x4A01#15 ∧ encode .cseed = 0x4A02#15 ∧ encode .fshift = 0x4A03#15 ∧
  (∀ i : Instr, i.wellFormed = true ↔
    (∃ off, i = .hrd off) ∨ (∃ off v, off ≠ 0x0A#6 ∧ i = .hwr off v) ∨ i = .ckey ∨ i = .cseed ∨ i = .fshift)

/-- Decoding the canonical word of a well-formed instruction gives it back, as a word and as the table's number. -/
def Obligations.DecodeInvertsEncode : Prop :=
  ∀ i : Instr, i.wellFormed = true →
    decode (encode i) = .instr i ∧ decodeTableWord 16 (encode i).toNat = some i

/-- The other direction: a word that decodes to an instruction is its canonical word, but for the ignored `WDATA` of a read, and
a word that is an illegal command is 0x4A00 plus a byte that names no operation. -/
def Obligations.EncodeInvertsDecode : Prop :=
  (∀ (w : BusWord) (i : Instr), decode w = .instr i →
    i.wellFormed = true ∧
      encode i = if w.toNat < 0x4000 then w &&& 0x3F00#15 else w) ∧
  (∀ (w : BusWord) (v : Byte), decode w = .illegalCommand v →
    w.toNat = 0x4A00 + v.toNat ∧ v ≠ 0x01#8 ∧ v ≠ 0x02#8 ∧ v ≠ 0x03#8) ∧
  (∀ (off : Offset) (v : Byte), decode (busWord false off v) = .instr (.hrd off))

/-! ## The window -/

/-- R34: the byte each offset reads as, with no side effect on the engine; a second read returns the same byte. -/
def Obligations.HostReadReturnsTheWindowByte : Prop :=
  ∀ (off : Offset) (s : State),
    ∃ (t u : State) (b : Byte), exec (.hrd off) s = .next t ∧ t.port.rdata = some b ∧ t.engine = s.engine ∧
      exec (.hrd off) t = .next u ∧ u.port.rdata = some b ∧ u.engine = s.engine ∧
      (∀ i : Fin 8, off.toNat = i.val → b = s.engine.addr[i]) ∧
      (off = 0x08#6 → b.toNat = s.engine.shift.toNat) ∧
      (off = 0x09#6 → b.toNat = 2 * s.engine.errCmd.toNat + s.engine.matched.toNat) ∧
      (off = 0x0A#6 → b = 0x00#8) ∧
      (0x0B ≤ off.toNat → off.toNat ≤ 0x0F → b = 0x00#8) ∧
      (∀ i : Fin 16, off.toNat = 0x10 + i.val → b = s.engine.seed[i]) ∧
      (∀ i : Fin 16, off.toNat = 0x20 + i.val → b = s.engine.key[i]) ∧
      (0x30 ≤ off.toNat → b = 0x00#8)

/-- R61: what a host write to each offset other than `CMD` leaves in the engine, and its word. -/
def Obligations.HostWriteStoresItsByte : Prop :=
  ∀ (off : Offset) (v : Byte), off ≠ 0x0A#6 →
    (encode (.hwr off v)).toNat = 0x4000 ||| (off.toNat <<< 8) ||| v.toNat ∧
    ∀ s : State, ∃ t, exec (.hwr off v) s = .next t ∧
      (∀ i : Fin 8, off.toNat = i.val → t.engine = { s.engine with addr := s.engine.addr.set i v }) ∧
      (off = 0x08#6 → t.engine = { s.engine with shift := BitVec.ofNat 4 (v.toNat % 16) }) ∧
      (off = 0x09#6 → t.engine = s.engine) ∧
      (0x0B ≤ off.toNat → off.toNat ≤ 0x0F → t.engine = s.engine) ∧
      (∀ i : Fin 16, off.toNat = 0x10 + i.val → t.engine = { s.engine with seed := s.engine.seed.set i v }) ∧
      (∀ i : Fin 16, off.toNat = 0x20 + i.val → t.engine = { s.engine with key := s.engine.key.set i v }) ∧
      (0x30 ≤ off.toNat → t.engine = s.engine)

/-- The frame of `HWR` through the window, an inference of the spec (40_host_access.md section on the frame rule): the written
offset reads as the byte written where it is an operand byte, every other offset reads as before, the flags stay. -/
def Obligations.HostWriteTouchesOneWindowByte : Prop :=
  ∀ (off : Offset) (v : Byte) (s : State), off ≠ 0x0A#6 →
    ∃ t, exec (.hwr off v) s = .next t ∧ t.engine.matched = s.engine.matched ∧ t.engine.errCmd = s.engine.errCmd ∧
      (∀ off' : Offset, off' ≠ off → regRead off' t.engine = regRead off' s.engine) ∧
      regRead off t.engine =
        (if off = 0x08#6 then v &&& 0x0F#8 else if operandOffset off then v else regRead off s.engine)

/-- R36: the high four bits of a byte written to `SHIFT` are dropped, which changes no rotation. -/
def Obligations.ShiftWriteKeepsTheLowFourBits : Prop :=
  (∀ (v : Byte) (s : State),
    ∃ t u, exec (.hwr 0x08#6 v) s = .next t ∧ t.engine.shift.toNat = v.toNat % 16 ∧
      t.engine = { s.engine with shift := t.engine.shift } ∧
      exec (.hrd 0x08#6) t = .next u ∧ u.port.rdata = some (v &&& 0x0F#8)) ∧
  (∀ (V : Block) (v : Byte), rotl V v.toNat = rotl V (v.toNat % 16)) ∧
  (∀ s : State, ∃ t u, exec (.hwr 0x08#6 0x13#8) s = .next t ∧ t.engine.shift = 3#4 ∧
    exec (.hrd 0x08#6) t = .next u ∧ u.port.rdata = some 0x03#8)

/-- R37: ignored writes and zero reads. -/
def Obligations.ReadOnlyWriteOnlyAndReservedOffsets : Prop :=
  (∀ (off : Offset) (v : Byte) (s : State),
    (off = 0x09#6 ∨ (0x0B ≤ off.toNat ∧ off.toNat ≤ 0x0F) ∨ 0x30 ≤ off.toNat) →
      ∃ t, exec (.hwr off v) s = .next t ∧ t.engine = s.engine) ∧
  (∀ (off : Offset) (s : State),
    (off = 0x0A#6 ∨ (0x0B ≤ off.toNat ∧ off.toNat ≤ 0x0F) ∨ 0x30 ≤ off.toNat) →
      ∃ t, exec (.hrd off) s = .next t ∧ t.engine = s.engine ∧ t.port.rdata = some 0x00#8)

/-- R15: `STATUS` is a view of the two flags, read-only, with bits 7:2 zero, and reads 0 after reset. -/
def Obligations.StatusShowsTheTwoFlags : Prop :=
  (∀ s : State, ∃ t b, exec (.hrd 0x09#6) s = .next t ∧ t.port.rdata = some b ∧ t.engine = s.engine ∧
    b.getLsbD 0 = s.engine.matched ∧ b.getLsbD 1 = s.engine.errCmd ∧ (∀ k, 2 ≤ k → b.getLsbD k = false) ∧
    b.toNat = (s.engine.errCmd.toNat <<< 1 ||| s.engine.matched.toNat) ∧
    (b = 0x00#8 ∨ b = 0x01#8 ∨ b = 0x02#8 ∨ b = 0x03#8)) ∧
  (∀ (v : Byte) (s : State), ∃ t, exec (.hwr 0x09#6 v) s = .next t ∧ t.engine = s.engine) ∧
  regRead 0x09#6 Engine.reset = 0x00#8

/-- A read of an operand byte returns what the latest earlier write of it left (20_memory.md section 6, part (b) of the ordering
rule), across any number of reads, writes, commands and illegal commands between them, none of which can write that byte. The
events are the model's list (log 1). -/
def Obligations.ReadSeesTheLatestWrite : Prop :=
  ∀ (s : State) (off : Offset) (v : Byte) (evs tail : List HostEvent),
    operandOffset off = true → (∀ ev ∈ evs, ev.leavesByte off = true) →
      s.port.pending =
        .transaction (encode (.hwr off v)) :: evs ++ .transaction (encode (.hrd off)) :: tail →
        ∃ t bs, runHost (evs.length + 2) s = some (t, bs) ∧ t.port.pending = tail ∧
          bs.getLast? = some (if off = 0x08#6 then v &&& 0x0F#8 else v)

/-- The other half of part (b): a read returns what the latest earlier command that wrote the byte left, or the reset value, or,
where nothing has written it, what it held; across any number of events that cannot write it. A read of `STATUS` sees the latest
search and the latest illegal command. The events are the model's list (log 1). -/
def Obligations.ReadSeesTheLatestCommandOrReset : Prop :=
  ∀ (s : State) (off : Offset) (first : HostEvent) (evs tail : List HostEvent),
    (∀ ev ∈ evs, ev.leavesByte off = true) →
      s.port.pending = first :: evs ++ .transaction (encode (.hrd off)) :: tail →
        let found := findKeyShift s.engine.addr s.engine.key s.engine.seed
        ∃ t bs b, runHost (evs.length + 2) s = some (t, bs) ∧ t.port.pending = tail ∧ bs.getLast? = some b ∧
          (first.isInstr .ckey = true → ∀ i : Fin 16, off.toNat = 0x20 + i.val →
            b = (computeKey s.engine.addr s.engine.seed s.engine.shift.toNat)[i]) ∧
          (first.isInstr .cseed = true → ∀ i : Fin 16, off.toNat = 0x10 + i.val →
            b = (computeSeed s.engine.addr s.engine.key s.engine.shift.toNat)[i]) ∧
          (first.isInstr .fshift = true → off = 0x08#6 → b.toNat = (found.getD s.engine.shift).toNat) ∧
          (first.isInstr .fshift = true → off = 0x09#6 →
            b.getLsbD 0 = found.isSome ∧ b.getLsbD 1 = s.engine.errCmd) ∧
          (first.isIllegal = true → off = 0x09#6 → b.getLsbD 0 = s.engine.matched ∧ b.getLsbD 1 = true) ∧
          (first = .reset → b = 0x00#8) ∧
          (first.leavesByte off = true → b = regRead off s.engine)

/-- The frame of `HRD`, whole: nothing but the response changes (40_host_access.md, frame rule; the response field is log 2). -/
def Obligations.HostReadChangesNothingButTheResponse : Prop :=
  ∀ (off : Offset) (s : State),
    exec (.hrd off) s =
      .next { engine := s.engine, port := { pending := s.port.pending, rdata := some (regRead off s.engine) } }

/-! ## Commands -/

/-- R50: what each byte written to `CMD` does, every other register unchanged. -/
def Obligations.CommandCodesSelectTheOperation : Prop :=
  ∀ e : Engine,
    regWrite 0x0A#6 0x01#8 e = { e with key := computeKey e.addr e.seed e.shift.toNat } ∧
    regWrite 0x0A#6 0x02#8 e = { e with seed := computeSeed e.addr e.key e.shift.toNat } ∧
    (∀ n, findKeyShift e.addr e.key e.seed = some n →
      regWrite 0x0A#6 0x03#8 e = { e with shift := n, matched := true }) ∧
    (findKeyShift e.addr e.key e.seed = none → regWrite 0x0A#6 0x03#8 e = { e with matched := false }) ∧
    (∀ v : Byte, v = 0x00#8 ∨ 0x04 ≤ v.toNat → regWrite 0x0A#6 v e = { e with errCmd := true })

/-- The three commands are the writes of their codes to `CMD`, also where the model is given `HWR` to `CMD`, which no word
decodes to (log 5). -/
def Obligations.CommandsAreWritesToCmd : Prop :=
  (∀ s : State, exec .ckey s = exec (.hwr 0x0A#6 0x01#8) s) ∧
  (∀ s : State, exec .cseed s = exec (.hwr 0x0A#6 0x02#8) s) ∧
  (∀ s : State, exec .fshift s = exec (.hwr 0x0A#6 0x03#8) s) ∧
  (∀ (v : Byte) (s : State), ∃ t, exec (.hwr 0x0A#6 v) s = .next t ∧ t.engine = regWrite 0x0A#6 v s.engine) ∧
  (∀ (v : Byte) (s : State),
    ∃ t, runEvent (.transaction (busWord true 0x0A#6 v)) s = .next t ∧ t.engine = regWrite 0x0A#6 v s.engine)

/-- R65, byte by byte, with its word, what is unchanged and its example. The inference the rule marks among its corner cases is
`CkeyTwiceGivesTheSameKey`. -/
def Obligations.CkeyDerivesTheKey : Prop :=
  encode .ckey = 0x4A01#15 ∧
  (∀ s : State, ∃ t, exec .ckey s = .next t ∧
    (∀ i : Fin 16, t.engine.key[i] =
      s.engine.seed[(i.val + s.engine.shift.toNat) % 16] ^^^ s.engine.addr[i.val % 8]) ∧
    t.engine = { s.engine with key := t.engine.key }) ∧
  computeKey #v[0x00, 0x01, 0x02, 0x03, 0x04, 0x05, 0x06, 0x07]
      #v[0x00, 0x01, 0x02, 0x03, 0x04, 0x05, 0x06, 0x07, 0x08, 0x09, 0x0A, 0x0B, 0x0C, 0x0D, 0x0E, 0x0F] 3 =
    #v[0x03, 0x05, 0x07, 0x05, 0x03, 0x0D, 0x0F, 0x0D, 0x0B, 0x0D, 0x0F, 0x0D, 0x0B, 0x05, 0x07, 0x05]

/-- A second `CKEY` gives the same key and changes nothing (41_derive.md section 1, an inference of the spec from what `CKEY`
leaves unchanged). -/
def Obligations.CkeyTwiceGivesTheSameKey : Prop :=
  ∀ s : State, ∃ t u, exec .ckey s = .next t ∧ exec .ckey t = .next u ∧ u.engine.key = t.engine.key ∧ u.engine = t.engine

/-- R66, byte by byte, with its word, what is unchanged and its example. -/
def Obligations.CseedRecoversTheSeed : Prop :=
  encode .cseed = 0x4A02#15 ∧
  (∀ s : State, ∃ t, exec .cseed s = .next t ∧
    (∀ i : Fin 16,
      let j := (i.val + 16 - s.engine.shift.toNat) % 16
      t.engine.seed[i] = s.engine.key[j]'(Nat.mod_lt _ (Nat.zero_lt_succ 15)) ^^^ s.engine.addr[j % 8]) ∧
    t.engine = { s.engine with seed := t.engine.seed } ∧
    ∃ u, exec .cseed t = .next u ∧ u.engine.seed = t.engine.seed) ∧
  computeSeed #v[0x12, 0x34, 0x56, 0x78, 0x9A, 0xBC, 0xDE, 0xF0]
      #v[0xFF, 0xEE, 0xDD, 0xCC, 0xBB, 0xAA, 0x99, 0x88, 0x77, 0x66, 0x55, 0x44, 0x33, 0x22, 0x11, 0x00] 4 =
    #v[0xA9, 0x9E, 0xCF, 0xF0, 0xED, 0xDA, 0x8B, 0xB4, 0x21, 0x16, 0x47, 0x78, 0x65, 0x52, 0x03, 0x3C]

/-- R75 and R76: the least fitting shift, or no match with `SHIFT` kept; nothing else changes; its word and example; a second
search gives the same. -/
def Obligations.FshiftFindsTheLeastFittingShift : Prop :=
  encode .fshift = 0x4A03#15 ∧
  (∀ s : State,
    let fits : Nat → Prop := fun n => ∀ i : Fin 16,
      s.engine.key[(i.val + 16 - n) % 16] ^^^ s.engine.addr[((i.val + 16 - n) % 16) % 8] = s.engine.seed[i]
    ∃ t, exec .fshift s = .next t ∧
      ((∃ n < 16, fits n) →
        t.engine.matched = true ∧ fits t.engine.shift.toNat ∧ ∀ m < t.engine.shift.toNat, ¬ fits m) ∧
      ((∀ n < 16, ¬ fits n) → t.engine.matched = false ∧ t.engine.shift = s.engine.shift) ∧
      t.engine = { s.engine with shift := t.engine.shift, matched := t.engine.matched } ∧
      ∃ u, exec .fshift t = .next u ∧ u.engine = t.engine) ∧
  findKeyShift #v[0x00, 0x01, 0x02, 0x03, 0x04, 0x05, 0x06, 0x07]
      #v[0x03, 0x05, 0x07, 0x05, 0x03, 0x0D, 0x0F, 0x0D, 0x0B, 0x0D, 0x0F, 0x0D, 0x0B, 0x05, 0x07, 0x05]
      #v[0x00, 0x01, 0x02, 0x03, 0x04, 0x05, 0x06, 0x07, 0x08, 0x09, 0x0A, 0x0B, 0x0C, 0x0D, 0x0E, 0x0F] = some 3#4

/-- R51 and R87: an illegal command sets `ERR_CMD` and nothing else, there are 253 of them, and nothing else sets the flag. -/
def Obligations.IllegalCommandSetsOnlyErrCmd : Prop :=
  (∀ v : Byte, v = 0x00#8 ∨ 0x04 ≤ v.toNat →
    decode (busWord true 0x0A#6 v) = .illegalCommand v ∧
    ∀ s : State, ∃ t, runEvent (.transaction (busWord true 0x0A#6 v)) s = .next t ∧
      t.engine = { s.engine with errCmd := true }) ∧
  ((List.range 256).filter fun n =>
    (HostEvent.transaction (busWord true 0x0A#6 (BitVec.ofNat 8 n))).isIllegal).length = 253 ∧
  (∀ (ev : HostEvent) (s : State), ev.isIllegal = false →
    ∃ t, runEvent ev s = .next t ∧ (t.engine.errCmd = true → s.engine.errCmd = true))

/-- R17: `ERR_CMD` is sticky, only reset clears it, and the engine runs the same whether it is set or not. -/
def Obligations.ErrCmdIsStickyAndTransparent : Prop :=
  (∀ (v : Byte) (s : State), v = 0x00#8 ∨ 0x04 ≤ v.toNat →
    ∃ t, runEvent (.transaction (busWord true 0x0A#6 v)) s = .next t ∧ t.engine.errCmd = true) ∧
  (∀ (ev : HostEvent) (s : State), ev ≠ .reset → s.engine.errCmd = true →
    ∃ t, runEvent ev s = .next t ∧ t.engine.errCmd = true) ∧
  (∀ s : State, ∃ t, runEvent .reset s = .next t ∧ t.engine.errCmd = false) ∧
  (∀ (ev : HostEvent) (s : State) (b : Bool), ∃ t u,
    runEvent ev s = .next t ∧ runEvent ev { s with engine := { s.engine with errCmd := b } } = .next u ∧
      u.engine = { t.engine with errCmd := u.engine.errCmd } ∧
      (ev.isInstr (.hrd 0x09#6) = false → u.port.rdata = t.port.rdata)) ∧
  (∀ s : State, ∃ t b, exec (.hrd 0x09#6) s = .next t ∧ t.port.rdata = some b ∧ b.getLsbD 1 = s.engine.errCmd) ∧
  Engine.reset.errCmd = false

/-- R16: `MATCH` is written by `FSHIFT` and reset only, to the outcome of the search and to 0, and read by no operation; the host
reads it in `STATUS` bit 0. -/
def Obligations.MatchReportsTheLatestSearch : Prop :=
  (∀ (ev : HostEvent) (s : State), ev ≠ .reset → ev.isInstr .fshift = false →
    ∃ t, runEvent ev s = .next t ∧ t.engine.matched = s.engine.matched) ∧
  (∀ s : State, ∃ t, exec .fshift s = .next t ∧
    (t.engine.matched = true ↔ ∃ n < 16, computeSeed s.engine.addr s.engine.key n = s.engine.seed) ∧
    (t.engine.matched = true → computeSeed s.engine.addr s.engine.key t.engine.shift.toNat = s.engine.seed)) ∧
  (∀ s : State, ∃ t, runEvent .reset s = .next t ∧ t.engine.matched = false) ∧
  (∀ (ev : HostEvent) (s : State) (b : Bool), ∃ t u,
    runEvent ev s = .next t ∧ runEvent ev { s with engine := { s.engine with matched := b } } = .next u ∧
      u.engine = { t.engine with matched := u.engine.matched }) ∧
  (∀ s : State, ∃ t b, exec (.hrd 0x09#6) s = .next t ∧ t.port.rdata = some b ∧ b.getLsbD 0 = s.engine.matched) ∧
  Engine.reset.matched = false

/-! ## Reset -/

/-- R95: reset gives every register its reset value from any state, every offset then reads 0x00, and every run starts there. -/
def Obligations.ResetZeroesEveryRegister : Prop :=
  (∀ s : State, ∃ t, runEvent .reset s = .next t ∧
    (∀ i : Fin 8, t.engine.addr[i] = 0x00#8) ∧ (∀ i : Fin 16, t.engine.seed[i] = 0x00#8) ∧
    (∀ i : Fin 16, t.engine.key[i] = 0x00#8) ∧ t.engine.shift = 0#4 ∧ t.engine.matched = false ∧
    t.engine.errCmd = false ∧ (∀ off : Offset, regRead off t.engine = 0x00#8) ∧
    t.engine = State.reset.engine)

/-- A search straight after reset matches at shift 0 (10_state.md section 5, an inference of the spec). -/
def Obligations.SearchAfterResetMatchesAtZero : Prop :=
  ∀ s : State, ∃ t u, runEvent .reset s = .next t ∧ t.engine.KeyConsistent ∧ exec .fshift t = .next u ∧
    u.engine.matched = true ∧ u.engine.shift = 0#4

/-! ## Laws of the derivation (41_derive.md) -/

/-- `CSEED` undoes `CKEY`, for every address, seed and shift: the document's sentence, and its form for the machine, which the
spec infers with it (41_derive.md section 4). -/
def Obligations.CseedAfterCkeyRestoresTheSeed : Prop :=
  (∀ (a : Address) (seed : Block) (s : Shift), computeSeed a (computeKey a seed s.toNat) s.toNat = seed) ∧
  (∀ s : State, ∃ t u, exec .ckey s = .next t ∧ exec .cseed t = .next u ∧ u.engine.seed = s.engine.seed)

/-- `CKEY` undoes `CSEED` (41_derive.md section 4, an inference of the spec). -/
def Obligations.CkeyAfterCseedRestoresTheKey : Prop :=
  ∀ s : State, ∃ t u, exec .cseed s = .next t ∧ exec .ckey t = .next u ∧ u.engine.key = s.engine.key

/-- At a fixed address and shift every key is derived from exactly one seed (41_derive.md section 4, an inference). -/
def Obligations.CkeyIsABijectionFromSeedsToKeys : Prop :=
  ∀ (s : State) (k : Block), ∃! seed : Block,
    ∃ t, exec .ckey { s with engine := { s.engine with seed := seed } } = .next t ∧ t.engine.key = k

/-- The sixteen keys of one address and seed are, with the address mask removed, the rotations of the seed, and two of them agree
exactly when the shifts agree modulo the period (41_derive.md section 4, an inference). -/
def Obligations.KeysAtDifferentShifts : Prop :=
  ∀ (a : Address) (seed : Block) (s t : Shift),
    xor16 (computeKey a seed s.toNat) (dup a) = rotl seed s.toNat ∧
    xor16 (computeKey a seed ((s.toNat + t.toNat) % 16)) (dup a) =
      rotl (xor16 (computeKey a seed s.toNat) (dup a)) t.toNat ∧
    (computeKey a seed s.toNat = computeKey a seed t.toNat ↔ s.toNat % period seed = t.toNat % period seed)

/-- Adding 8 to the shift swaps the halves of the key (41_derive.md section 4, an inference). -/
def Obligations.AddressHalfSymmetry : Prop :=
  (∀ a : Address, rotl (dup a) 8 = dup a) ∧
  (∀ (a : Address) (seed : Block) (s : Shift) (i : Fin 16),
    (computeKey a seed ((s.toNat + 8) % 16))[i] = (computeKey a seed s.toNat)[(i.val + 8) % 16])

/-- Each bit of each result byte of `CKEY` and `CSEED` depends on one bit of one byte of the source register, the same bit of one
byte of `ADDR`, and `SHIFT` (41_derive.md section 3, an inference). -/
def Obligations.DerivationLanesAreIndependent : Prop :=
  ∀ (s s' : State) (i : Fin 16) (k : Nat), s.engine.shift = s'.engine.shift →
    ∃ t t' u u', exec .ckey s = .next t ∧ exec .ckey s' = .next t' ∧
      exec .cseed s = .next u ∧ exec .cseed s' = .next u' ∧
      (s.engine.seed[(i.val + s.engine.shift.toNat) % 16].getLsbD k =
          s'.engine.seed[(i.val + s.engine.shift.toNat) % 16].getLsbD k →
        s.engine.addr[i.val % 8].getLsbD k = s'.engine.addr[i.val % 8].getLsbD k →
        t.engine.key[i].getLsbD k = t'.engine.key[i].getLsbD k) ∧
      (s.engine.key[(i.val + 16 - s.engine.shift.toNat) % 16].getLsbD k =
          s'.engine.key[(i.val + 16 - s.engine.shift.toNat) % 16].getLsbD k →
        s.engine.addr[(i.val + 16 - s.engine.shift.toNat) % 8].getLsbD k =
          s'.engine.addr[(i.val + 16 - s.engine.shift.toNat) % 8].getLsbD k →
        u.engine.seed[i].getLsbD k = u'.engine.seed[i].getLsbD k)

/-- The results of the three commands depend on nothing but the operands the spec names for each (frame rules of 41_derive.md and
42_search.md, inferences). -/
def Obligations.CommandResultsDependOnTheirOperandsOnly : Prop :=
  ∀ s s' : State, s.engine.addr = s'.engine.addr →
    ∃ a a' b b' c c', exec .ckey s = .next a ∧ exec .ckey s' = .next a' ∧ exec .cseed s = .next b ∧
      exec .cseed s' = .next b' ∧ exec .fshift s = .next c ∧ exec .fshift s' = .next c' ∧
      (s.engine.seed = s'.engine.seed → s.engine.shift = s'.engine.shift → a.engine.key = a'.engine.key) ∧
      (s.engine.key = s'.engine.key → s.engine.shift = s'.engine.shift → b.engine.seed = b'.engine.seed) ∧
      (s.engine.key = s'.engine.key → s.engine.seed = s'.engine.seed →
        c.engine.matched = c'.engine.matched ∧ (c.engine.matched = true → c.engine.shift = c'.engine.shift))

/-! ## Laws of the search (42_search.md) -/

/-- The seed test and the key test find the same shifts (42_search.md section 2, an inference). -/
def Obligations.SeedTestAndKeyTestAgree : Prop :=
  ∀ (a : Address) (key seed : Block) (s : Shift),
    computeSeed a key s.toNat = seed ↔ computeKey a seed s.toNat = key

/-- The period of a seed, and the set of fitting shifts: empty or one residue class modulo the period, of which the search takes
the least (42_search.md section 3, an inference). -/
def Obligations.FittingShiftsAreAResidueClass : Prop :=
  (∀ seed : Block, period seed ∈ [1, 2, 4, 8, 16] ∧ rotl seed (period seed) = seed ∧
    ∀ q ∈ [1, 2, 4, 8, 16], rotl seed q = seed → period seed ≤ q) ∧
  (∀ (a : Address) (key seed : Block) (s₀ : Shift), computeSeed a key s₀.toNat = seed →
    (∀ s : Shift, computeSeed a key s.toNat = seed ↔ s.toNat % period seed = s₀.toNat % period seed) ∧
    ((List.range 16).filter fun n => eq16 (computeSeed a key n) seed).length = 16 / period seed ∧
    findKeyShift a key seed = some (BitVec.ofNat 4 (s₀.toNat % period seed)))

/-- The exact round-trip law of `CKEY ; FSHIFT`, and the counter-example to the document's sentence (42_search.md section 3, an
inference the spec makes normative; 90_conflicts.md C1). -/
def Obligations.FshiftAfterCkeyFindsTheShiftModuloThePeriod : Prop :=
  (∀ s : State, ∃ t u, exec .ckey s = .next t ∧ exec .fshift t = .next u ∧ u.engine.matched = true ∧
    u.engine.shift.toNat = s.engine.shift.toNat % period s.engine.seed ∧
    (s.engine.shift.toNat < period s.engine.seed → u.engine.shift = s.engine.shift)) ∧
  (∀ s : State, s.engine.seed = Vector.replicate 16 0x00#8 → s.engine.shift = 3#4 →
    ∃ t u, exec .ckey s = .next t ∧ t.engine.key = dup s.engine.addr ∧ exec .fshift t = .next u ∧
      u.engine.shift = 0#4)

/-- The same law for `CSEED ; FSHIFT`, with the period of the seed `CSEED` wrote (42_search.md section 4, an inference). -/
def Obligations.FshiftAfterCseedFindsTheShiftModuloThePeriod : Prop :=
  ∀ s : State, ∃ t u, exec .cseed s = .next t ∧ exec .fshift t = .next u ∧ u.engine.matched = true ∧
    u.engine.shift.toNat = s.engine.shift.toNat % period t.engine.seed

/-- A match reproduces the key and the seed, so that `CKEY` and `CSEED` issued next change nothing (42_search.md section 4, an
inference). -/
def Obligations.FshiftMatchIsSound : Prop :=
  ∀ s : State, ∃ t, exec .fshift s = .next t ∧
    (t.engine.matched = true →
      t.engine.key = xor16 (rotl t.engine.seed t.engine.shift.toNat) (dup t.engine.addr) ∧
      t.engine.seed = rotr (xor16 t.engine.key (dup t.engine.addr)) t.engine.shift.toNat ∧
      ∃ u v, exec .ckey t = .next u ∧ u.engine = t.engine ∧ exec .cseed t = .next v ∧ v.engine = t.engine)

/-- No match exactly when no shift derives the key (42_search.md section 4, an inference). -/
def Obligations.FshiftMissIsComplete : Prop :=
  ∀ s : State, ∃ t, exec .fshift s = .next t ∧
    (t.engine.matched = false ↔
      ∀ n < 16, xor16 (rotl s.engine.seed n) (dup s.engine.addr) ≠ s.engine.key)

/-! ## Invariants -/

/-- A host that writes no illegal command never sees `ERR_CMD`: with none recorded and none to come, every step keeps it so
(70_reset_and_hazards.md section 3, an inference; the list of events is log 1). -/
def Obligations.ErrFreeIsKeptByEveryStep : Prop :=
  ∀ s t : State, s.ErrFree → step s = .next t → t.ErrFree

/-- At reset no error is recorded (10_state.md section 5) and no pending event is an illegal command; the second rests on the
model's choice that no event is pending at reset (log 1). -/
def Obligations.ErrFreeAtReset : Prop := State.reset.ErrFree

/-- While the host writes no operand, every step keeps `KEY` the key of `ADDR`, `SEED` and `SHIFT`: commands, reads, ignored
writes, illegal commands and reset alike (from the laws of 41_derive.md and 42_search.md; the list of events is log 1). -/
def Obligations.ConsistencyIsKeptByEveryStep : Prop :=
  ∀ s t : State, s.Consistent → step s = .next t → t.Consistent

/-- At reset `KEY` is the key of `ADDR`, `SEED` and `SHIFT` (10_state.md section 5, an inference) and no pending event writes an
operand; the second rests on the model's choice that no event is pending at reset (log 1). -/
def Obligations.ConsistencyAtReset : Prop := State.reset.Consistent

/-! ## Host programs (30_encoding.md section 7) -/

/-- `compute_key` as a host program computes the document's function from any state and leaves the operands loaded. -/
def Obligations.ComputeKeyProgramReturnsTheKey : Prop :=
  ∀ (order : AddrTextOrder) (a : Address) (seed : Block) (sh : Shift) (s : State),
    ∃ t, runProgram (assemble order (callComputeKey a seed sh)) s = some (t, (computeKey a seed sh.toNat).toList) ∧
      t.port.pending = s.port.pending ∧
      t.engine = { s.engine with addr := a, seed := seed, shift := sh, key := computeKey a seed sh.toNat }

/-- `compute_seed` as a host program. -/
def Obligations.ComputeSeedProgramReturnsTheSeed : Prop :=
  ∀ (order : AddrTextOrder) (a : Address) (key : Block) (sh : Shift) (s : State),
    ∃ t, runProgram (assemble order (callComputeSeed a key sh)) s = some (t, (computeSeed a key sh.toNat).toList) ∧
      t.port.pending = s.port.pending ∧
      t.engine = { s.engine with addr := a, key := key, shift := sh, seed := computeSeed a key sh.toNat }

/-- `find_key_shift` as a host program: the shift read where `STATUS` bit 0 says there is one, else "no match". -/
def Obligations.FindKeyShiftProgramReturnsTheShift : Prop :=
  ∀ (order : AddrTextOrder) (a : Address) (key seed : Block) (s : State),
    ∃ t bs, runProgram (assemble order (callFindKeyShift a key seed)) s = some (t, bs) ∧
      searchResult bs = findKeyShift a key seed ∧ t.port.pending = s.port.pending ∧
      t.engine.addr = a ∧ t.engine.key = key ∧ t.engine.seed = seed ∧ t.engine.errCmd = s.engine.errCmd

/-- The loads write their register and nothing else, in whatever order their writes are issued; the reads return the register
in index order (30_encoding.md section 7). -/
def Obligations.LoadsInAnyOrderAndReadsInIndexOrder : Prop :=
  (∀ (bs : Address) (evs : List HostEvent) (s : State), evs.Perm (expandLd8 bs) →
    ∃ t, runProgram evs s = some (t, []) ∧ t.engine = { s.engine with addr := bs }) ∧
  (∀ (bs : Block) (evs : List HostEvent) (s : State), evs.Perm (expandLd16 .seed bs) →
    ∃ t, runProgram evs s = some (t, []) ∧ t.engine = { s.engine with seed := bs }) ∧
  (∀ (bs : Block) (evs : List HostEvent) (s : State), evs.Perm (expandLd16 .key bs) →
    ∃ t, runProgram evs s = some (t, []) ∧ t.engine = { s.engine with key := bs }) ∧
  (∀ s : State, ∃ t, runProgram expandRd8 s = some (t, s.engine.addr.toList) ∧ t.engine = s.engine) ∧
  (∀ s : State, ∃ t, runProgram (expandRd16 .seed) s = some (t, s.engine.seed.toList) ∧ t.engine = s.engine) ∧
  (∀ s : State, ∃ t, runProgram (expandRd16 .key) s = some (t, s.engine.key.toList) ∧ t.engine = s.engine)

/-- What `LDADDRTXT` expands to under each setting (30_encoding.md section 7), and that no other line of the assembler depends on
the parameter (the table of 00_scope.md section 4). The assembler takes the order as an argument, the model's choice (log 7). -/
def Obligations.AddressTextOrder : Prop :=
  (∀ (ts : Address), AsmLine.expand .asWritten (.ldaddrtxt ts) = AsmLine.expand .asWritten (.ld8 ts)) ∧
  (∀ (t0 t1 t2 t3 t4 t5 t6 t7 : Byte),
    AsmLine.expand .reversed (.ldaddrtxt #v[t0, t1, t2, t3, t4, t5, t6, t7]) =
      AsmLine.expand .reversed (.ld8 #v[t7, t6, t5, t4, t3, t2, t1, t0])) ∧
  (∀ (o o' : AddrTextOrder) (l : AsmLine), (∀ ts, l ≠ .ldaddrtxt ts) → AsmLine.expand o l = AsmLine.expand o' l)

/-! ## The platform -/

/-- `BASE + off` reaches `off`, and an access outside `BASE .. BASE + 63` is no step and leaves the block as it was (20_memory.md
section 4). Host addresses are compared as natural numbers, so no window wraps around: the model's choice (log 6), on which "below
`BASE`" and "above `BASE + 63`" rest. -/
def Obligations.BaseSelectsTheWindow : Prop :=
  (∀ (s : State) (off : Offset) (we : Bool) (v : Byte),
    s.issueAccess (Config.base + off.toNat) we v = s.issue [.transaction (busWord we off v)]) ∧
  (∀ (s : State) (hostAddr : Nat) (we : Bool) (v : Byte), hostAddr < Config.base ∨ Config.base + 63 < hostAddr →
    s.issueAccess hostAddr we v = s)

/-- Reset wins over a transaction presented with it, which has no effect (60_exceptions.md section 3; log 9). -/
def Obligations.ResetWinsOverACoincidingTransaction : Prop :=
  ∀ (w : BusWord) (s : State),
    ∃ t, runProgram (coincide true (some w)) s = some (t, []) ∧ t.engine = Engine.reset ∧
      t.port.pending = s.port.pending
end

