-- ==== Sys2Proof/Laws/Decode.lean ====
section
/-!
SUPPORT. The fields of a composed word (R46), and that every word is composed of its fields.
-/
namespace Sys2Proof

@[simp] theorem wordWE_busWord (we : Bool) (off : Offset) (v : Byte) : wordWE (busWord we off v) = we := by
  cases we <;> simp [wordWE, busWord]

@[simp] theorem wordOff_busWord (we : Bool) (off : Offset) (v : Byte) : wordOff (busWord we off v) = off := by
  ext i hi
  cases we <;> interval_cases i <;> simp [wordOff, busWord]

@[simp] theorem wordData_busWord (we : Bool) (off : Offset) (v : Byte) : wordData (busWord we off v) = v := by
  ext i hi
  cases we <;> interval_cases i <;> simp [wordData, busWord]

/-- Every word is composed of its three fields. -/
theorem busWord_fields (w : BusWord) : busWord (wordWE w) (wordOff w) (wordData w) = w := by
  ext i hi
  interval_cases i <;> simp [busWord, wordWE, wordOff, wordData]

end Sys2Proof
end

