-- ==== Sys2Proof/Laws/Operands.lean ====
section
/-!
SUPPORT. Each primitive byte by byte (R6), and what `eq16` and the search answer.
-/
namespace Sys2Proof.Machine

@[simp] theorem getElem_dup (a : Address) (i : Nat) (h : i < 16) : (dup a)[i] = a[i % 8] := by simp [dup]

@[simp] theorem getElem_rotl (v : Block) (s i : Nat) (h : i < 16) : (rotl v s)[i] = v[(i + s) % 16] := by simp [rotl]

@[simp] theorem getElem_rotr (v : Block) (s i : Nat) (h : i < 16) : (rotr v s)[i] = v[(i + 16 - s) % 16] := by simp [rotr]

@[simp] theorem getElem_xor16 (v w : Block) (i : Nat) (h : i < 16) : (xor16 v w)[i] = v[i] ^^^ w[i] := by simp [xor16]

/-- Two blocks are equal when their sixteen bytes are. -/
theorem block_ext (v w : Block) (h : ∀ i (hi : i < 16), v[i] = w[i]) : v = w := Vector.ext h

/-- `eq16` is equality (R6). -/
@[simp] theorem eq16_iff (v w : Block) : eq16 v w = true ↔ v = w := by
  simp only [eq16, decide_eq_true_eq]
  exact ⟨fun h => block_ext v w fun i hi => h ⟨i, hi⟩, fun h _ => by rw [h]⟩

/-- `eq16` as a decision. -/
theorem eq16_eq_decide (v w : Block) : eq16 v w = decide (v = w) := by
  rw [Bool.eq_iff_iff, eq16_iff, decide_eq_true_eq]

/-- `period` tries the five candidates in ascending order (R78). -/
theorem period_eq (v : Block) :
    period v =
      if rotl v 1 = v then 1 else if rotl v 2 = v then 2 else if rotl v 4 = v then 4 else if rotl v 8 = v then 8 else 16 := by
  simp only [period, List.find?, eq16_eq_decide]
  split_ifs <;> simp [*]

/-- What a search that finds `s` says: `s` fits and nothing below it does (R75, R76). -/
theorem findKeyShift_eq_some (a : Address) (key seed : Block) (s : Shift) :
    findKeyShift a key seed = some s ↔
      computeSeed a key s.toNat = seed ∧ ∀ n < s.toNat, computeSeed a key n ≠ seed := by
  simp only [findKeyShift, Option.map_eq_some_iff, List.find?_range_eq_some, eq16_iff, List.mem_range]
  constructor
  · rintro ⟨n, ⟨hfit, hn, hmin⟩, rfl⟩
    have : (BitVec.ofNat 4 n).toNat = n := by simp only [BitVec.toNat_ofNat]; omega
    rw [this]
    exact ⟨hfit, fun m hm he => by simpa [he, (eq16_iff seed seed).2 rfl] using hmin m hm⟩
  · rintro ⟨hfit, hmin⟩
    refine ⟨s.toNat, ⟨hfit, s.isLt, fun m hm => ?_⟩, by simp⟩
    rw [Bool.not_eq_true', ← Bool.not_eq_true]
    exact mt (eq16_iff _ _).1 (hmin m hm)

/-- What a search that finds nothing says: none of the sixteen shifts fits (R75, R81). -/
theorem findKeyShift_eq_none (a : Address) (key seed : Block) :
    findKeyShift a key seed = none ↔ ∀ n < 16, computeSeed a key n ≠ seed := by
  simp only [findKeyShift, Option.map_eq_none_iff, List.find?_range_eq_none]
  refine forall_congr' fun n => imp_congr_right fun _ => ?_
  rw [Bool.not_eq_true', ← Bool.not_eq_true, eq16_iff]

end Sys2Proof.Machine
end

