-- ==== Sys2Proof/Laws/State.lean ====
section
/-!
SUPPORT. What each named update leaves in each field: one lemma per field per update, so that no proof unfolds a record update.
-/
namespace Sys2Proof.Machine

variable (e : Engine) (s : State)

@[simp] theorem Engine.setAddrByte_addr (i : Fin 8) (v : Byte) : (e.setAddrByte i v).addr = e.addr.set i v := rfl
@[simp] theorem Engine.setAddrByte_seed (i : Fin 8) (v : Byte) : (e.setAddrByte i v).seed = e.seed := rfl
@[simp] theorem Engine.setAddrByte_key (i : Fin 8) (v : Byte) : (e.setAddrByte i v).key = e.key := rfl
@[simp] theorem Engine.setAddrByte_shift (i : Fin 8) (v : Byte) : (e.setAddrByte i v).shift = e.shift := rfl
@[simp] theorem Engine.setAddrByte_matched (i : Fin 8) (v : Byte) : (e.setAddrByte i v).matched = e.matched := rfl
@[simp] theorem Engine.setAddrByte_errCmd (i : Fin 8) (v : Byte) : (e.setAddrByte i v).errCmd = e.errCmd := rfl

@[simp] theorem Engine.setSeedByte_addr (i : Fin 16) (v : Byte) : (e.setSeedByte i v).addr = e.addr := rfl
@[simp] theorem Engine.setSeedByte_seed (i : Fin 16) (v : Byte) : (e.setSeedByte i v).seed = e.seed.set i v := rfl
@[simp] theorem Engine.setSeedByte_key (i : Fin 16) (v : Byte) : (e.setSeedByte i v).key = e.key := rfl
@[simp] theorem Engine.setSeedByte_shift (i : Fin 16) (v : Byte) : (e.setSeedByte i v).shift = e.shift := rfl
@[simp] theorem Engine.setSeedByte_matched (i : Fin 16) (v : Byte) : (e.setSeedByte i v).matched = e.matched := rfl
@[simp] theorem Engine.setSeedByte_errCmd (i : Fin 16) (v : Byte) : (e.setSeedByte i v).errCmd = e.errCmd := rfl

@[simp] theorem Engine.setKeyByte_addr (i : Fin 16) (v : Byte) : (e.setKeyByte i v).addr = e.addr := rfl
@[simp] theorem Engine.setKeyByte_seed (i : Fin 16) (v : Byte) : (e.setKeyByte i v).seed = e.seed := rfl
@[simp] theorem Engine.setKeyByte_key (i : Fin 16) (v : Byte) : (e.setKeyByte i v).key = e.key.set i v := rfl
@[simp] theorem Engine.setKeyByte_shift (i : Fin 16) (v : Byte) : (e.setKeyByte i v).shift = e.shift := rfl
@[simp] theorem Engine.setKeyByte_matched (i : Fin 16) (v : Byte) : (e.setKeyByte i v).matched = e.matched := rfl
@[simp] theorem Engine.setKeyByte_errCmd (i : Fin 16) (v : Byte) : (e.setKeyByte i v).errCmd = e.errCmd := rfl

@[simp] theorem Engine.setSeed_addr (v : Block) : (e.setSeed v).addr = e.addr := rfl
@[simp] theorem Engine.setSeed_seed (v : Block) : (e.setSeed v).seed = v := rfl
@[simp] theorem Engine.setSeed_key (v : Block) : (e.setSeed v).key = e.key := rfl
@[simp] theorem Engine.setSeed_shift (v : Block) : (e.setSeed v).shift = e.shift := rfl
@[simp] theorem Engine.setSeed_matched (v : Block) : (e.setSeed v).matched = e.matched := rfl
@[simp] theorem Engine.setSeed_errCmd (v : Block) : (e.setSeed v).errCmd = e.errCmd := rfl

@[simp] theorem Engine.setKey_addr (v : Block) : (e.setKey v).addr = e.addr := rfl
@[simp] theorem Engine.setKey_seed (v : Block) : (e.setKey v).seed = e.seed := rfl
@[simp] theorem Engine.setKey_key (v : Block) : (e.setKey v).key = v := rfl
@[simp] theorem Engine.setKey_shift (v : Block) : (e.setKey v).shift = e.shift := rfl
@[simp] theorem Engine.setKey_matched (v : Block) : (e.setKey v).matched = e.matched := rfl
@[simp] theorem Engine.setKey_errCmd (v : Block) : (e.setKey v).errCmd = e.errCmd := rfl

@[simp] theorem Engine.setShift_addr (v : Shift) : (e.setShift v).addr = e.addr := rfl
@[simp] theorem Engine.setShift_seed (v : Shift) : (e.setShift v).seed = e.seed := rfl
@[simp] theorem Engine.setShift_key (v : Shift) : (e.setShift v).key = e.key := rfl
@[simp] theorem Engine.setShift_shift (v : Shift) : (e.setShift v).shift = v := rfl
@[simp] theorem Engine.setShift_matched (v : Shift) : (e.setShift v).matched = e.matched := rfl
@[simp] theorem Engine.setShift_errCmd (v : Shift) : (e.setShift v).errCmd = e.errCmd := rfl

@[simp] theorem Engine.setMatch_addr (b : Bool) : (e.setMatch b).addr = e.addr := rfl
@[simp] theorem Engine.setMatch_seed (b : Bool) : (e.setMatch b).seed = e.seed := rfl
@[simp] theorem Engine.setMatch_key (b : Bool) : (e.setMatch b).key = e.key := rfl
@[simp] theorem Engine.setMatch_shift (b : Bool) : (e.setMatch b).shift = e.shift := rfl
@[simp] theorem Engine.setMatch_matched (b : Bool) : (e.setMatch b).matched = b := rfl
@[simp] theorem Engine.setMatch_errCmd (b : Bool) : (e.setMatch b).errCmd = e.errCmd := rfl

@[simp] theorem Engine.setErrCmd_addr : (e.setErrCmd).addr = e.addr := rfl
@[simp] theorem Engine.setErrCmd_seed : (e.setErrCmd).seed = e.seed := rfl
@[simp] theorem Engine.setErrCmd_key : (e.setErrCmd).key = e.key := rfl
@[simp] theorem Engine.setErrCmd_shift : (e.setErrCmd).shift = e.shift := rfl
@[simp] theorem Engine.setErrCmd_matched : (e.setErrCmd).matched = e.matched := rfl
@[simp] theorem Engine.setErrCmd_errCmd : (e.setErrCmd).errCmd = true := rfl

@[simp] theorem State.respond_engine (v : Byte) : (s.respond v).engine = s.engine := rfl
@[simp] theorem State.respond_pending (v : Byte) : (s.respond v).port.pending = s.port.pending := rfl
@[simp] theorem State.respond_rdata (v : Byte) : (s.respond v).port.rdata = some v := rfl

@[simp] theorem State.update_engine (f : Engine → Engine) : (s.update f).engine = f s.engine := rfl
@[simp] theorem State.update_pending (f : Engine → Engine) : (s.update f).port.pending = s.port.pending := rfl
@[simp] theorem State.update_rdata (f : Engine → Engine) : (s.update f).port.rdata = none := rfl

@[simp] theorem State.takeReset_engine : (s.takeReset).engine = Engine.reset := rfl
@[simp] theorem State.takeReset_pending : (s.takeReset).port.pending = s.port.pending := rfl
@[simp] theorem State.takeReset_rdata : (s.takeReset).port.rdata = none := rfl

@[simp] theorem State.withPending_engine (evs : List HostEvent) : (s.withPending evs).engine = s.engine := rfl
@[simp] theorem State.withPending_pending (evs : List HostEvent) : (s.withPending evs).port.pending = evs := rfl
@[simp] theorem State.withPending_rdata (evs : List HostEvent) : (s.withPending evs).port.rdata = s.port.rdata := rfl

@[simp] theorem State.issueFirst_engine (evs : List HostEvent) : (s.issueFirst evs).engine = s.engine := rfl
@[simp] theorem State.issueFirst_pending (evs : List HostEvent) : (s.issueFirst evs).port.pending = evs ++ s.port.pending := rfl
@[simp] theorem State.issueFirst_rdata (evs : List HostEvent) : (s.issueFirst evs).port.rdata = s.port.rdata := rfl

@[simp] theorem State.issue_engine (evs : List HostEvent) : (s.issue evs).engine = s.engine := rfl
@[simp] theorem State.issue_pending (evs : List HostEvent) : (s.issue evs).port.pending = s.port.pending ++ evs := rfl
@[simp] theorem State.issue_rdata (evs : List HostEvent) : (s.issue evs).port.rdata = s.port.rdata := rfl

end Sys2Proof.Machine
end

