-- ==== Sys2Proof/Laws/Ops.lean ====
section
/-!
SUPPORT. The window primitives row by row of the register map (R33, R34, R35): one lemma per row for the read and the write.
-/
namespace Sys2Proof.Machine

variable (e : Engine) (off : Offset) (v : Byte)

theorem regRead_addr (i : Fin 8) (h : off.toNat = i.val) : regRead off e = e.addr[i] := by
  have : i.val ≤ 7 := by omega
  simp [regRead, h, this]

theorem regRead_shift (h : off.toNat = 0x08) : regRead off e = shiftByte e.shift := by simp [regRead, h]

theorem regRead_status (h : off.toNat = 0x09) : regRead off e = statusByte e.matched e.errCmd := by simp [regRead, h]

theorem regRead_seed (i : Fin 16) (h : off.toNat = 0x10 + i.val) : regRead off e = e.seed[i] := by
  have := i.isLt
  simp [regRead, h, show ¬ 16 + i.val ≤ 7 by omega, show 16 + i.val ≠ 8 by omega, show 16 + i.val ≠ 9 by omega,
    show 16 + i.val ≠ 10 by omega, show ¬ 16 + i.val ≤ 15 by omega, show 16 + i.val ≤ 31 by omega]

theorem regRead_key (i : Fin 16) (h : off.toNat = 0x20 + i.val) : regRead off e = e.key[i] := by
  have := i.isLt
  simp [regRead, h, show ¬ 32 + i.val ≤ 7 by omega, show 32 + i.val ≠ 8 by omega, show 32 + i.val ≠ 9 by omega,
    show 32 + i.val ≠ 10 by omega, show ¬ 32 + i.val ≤ 15 by omega, show ¬ 32 + i.val ≤ 31 by omega,
    show 32 + i.val ≤ 47 by omega]

/-- `CMD` and the reserved offsets read 0x00 (R37). -/
theorem regRead_zero (h : (0x0A ≤ off.toNat ∧ off.toNat ≤ 0x0F) ∨ 0x30 ≤ off.toNat) : regRead off e = 0x00#8 := by
  simp only [regRead]
  repeat' split
  all_goals first | rfl | (exfalso; omega)

theorem regWrite_addr (i : Fin 8) (h : off.toNat = i.val) : regWrite off v e = e.setAddrByte i v := by
  have : i.val ≤ 7 := by omega
  simp [regWrite, h, this]

theorem regWrite_shift (h : off.toNat = 0x08) : regWrite off v e = e.setShift (shiftField v) := by simp [regWrite, h]

theorem regWrite_cmd (h : off.toNat = 0x0A) : regWrite off v e = command v e := by simp [regWrite, h]

theorem regWrite_seed (i : Fin 16) (h : off.toNat = 0x10 + i.val) : regWrite off v e = e.setSeedByte i v := by
  have := i.isLt
  simp [regWrite, h, show ¬ 16 + i.val ≤ 7 by omega, show 16 + i.val ≠ 8 by omega, show 16 + i.val ≠ 9 by omega,
    show 16 + i.val ≠ 10 by omega, show ¬ 16 + i.val ≤ 15 by omega, show 16 + i.val ≤ 31 by omega]

theorem regWrite_key (i : Fin 16) (h : off.toNat = 0x20 + i.val) : regWrite off v e = e.setKeyByte i v := by
  have := i.isLt
  simp [regWrite, h, show ¬ 32 + i.val ≤ 7 by omega, show 32 + i.val ≠ 8 by omega, show 32 + i.val ≠ 9 by omega,
    show 32 + i.val ≠ 10 by omega, show ¬ 32 + i.val ≤ 15 by omega, show ¬ 32 + i.val ≤ 31 by omega,
    show 32 + i.val ≤ 47 by omega]

/-- Writes to `STATUS` and to the reserved offsets are ignored (R37). -/
theorem regWrite_ignored
    (h : off.toNat = 0x09 ∨ (0x0B ≤ off.toNat ∧ off.toNat ≤ 0x0F) ∨ 0x30 ≤ off.toNat) : regWrite off v e = e := by
  simp only [regWrite]
  repeat' split
  all_goals first | rfl | (exfalso; omega)

/-- Every offset is in exactly one row of the register map (R33): the case split to use on an offset. -/
theorem offset_rows :
    (∃ i : Fin 8, off.toNat = i.val) ∨ off.toNat = 0x08 ∨ off.toNat = 0x09 ∨ off.toNat = 0x0A ∨
      (0x0B ≤ off.toNat ∧ off.toNat ≤ 0x0F) ∨ (∃ i : Fin 16, off.toNat = 0x10 + i.val) ∨
      (∃ i : Fin 16, off.toNat = 0x20 + i.val) ∨ 0x30 ≤ off.toNat := by
  have := off.isLt
  by_cases h1 : off.toNat ≤ 7
  · exact .inl ⟨⟨off.toNat, by omega⟩, rfl⟩
  by_cases h2 : 0x10 ≤ off.toNat ∧ off.toNat ≤ 0x1F
  · exact .inr (.inr (.inr (.inr (.inr (.inl ⟨⟨off.toNat - 0x10, by omega⟩, by simp; omega⟩)))))
  by_cases h3 : 0x20 ≤ off.toNat ∧ off.toNat ≤ 0x2F
  · exact .inr (.inr (.inr (.inr (.inr (.inr (.inl ⟨⟨off.toNat - 0x20, by omega⟩, by simp; omega⟩))))))
  omega

/-- What a search leaves, case by case (R75). -/
theorem searchShift_cases :
    (∃ n, findKeyShift e.addr e.key e.seed = some n ∧ searchShift e = (e.setShift n).setMatch true) ∨
      (findKeyShift e.addr e.key e.seed = none ∧ searchShift e = e.setMatch false) := by
  cases h : findKeyShift e.addr e.key e.seed with
  | none => exact .inr ⟨rfl, by simp [searchShift, h, shiftAfter, matchAfter, Engine.setShift, Engine.setMatch]⟩
  | some n => exact .inl ⟨n, rfl, by simp [searchShift, h, shiftAfter, matchAfter]⟩

end Sys2Proof.Machine
end

