-- ==== Sys2Proof/Laws/PerInstr.lean ====
section
/-!
SUPPORT. One fact per instruction as syntax: its canonical word lies in its row of spec/opcode_table.json, and a `HWR` word
never lies in the command rows (R47, R53).
-/
namespace Sys2Proof.Laws.TableRow

/-- The mask column of the opcode table. -/
def rowMask : Instr → BusWord
  | .hrd _ => 0x4000#15
  | .hwr _ _ => 0x4000#15
  | .ckey => 0x7FFF#15
  | .cseed => 0x7FFF#15
  | .fshift => 0x7FFF#15

/-- The match column of the opcode table. -/
def rowMatch : Instr → BusWord
  | .hrd _ => 0x0000#15
  | .hwr _ _ => 0x4000#15
  | .ckey => 0x4A01#15
  | .cseed => 0x4A02#15
  | .fshift => 0x4A03#15

/-- The word is in the row's pattern, and is a write to `CMD` exactly for the three commands. -/
def Statement (i : Instr) : Prop :=
  i.wellFormed = true →
    encode i &&& rowMask i = rowMatch i ∧
      ((wordWE (encode i) = true ∧ wordOff (encode i) = 0x0A#6) ↔ (i = .ckey ∨ i = .cseed ∨ i = .fshift))

theorem hrd (off : Offset) : Statement (.hrd off) := by
  refine fun _ => ⟨?_, by simp [encode]⟩
  ext i hi
  interval_cases i <;> simp [encode, busWord, rowMask, rowMatch]

theorem hwr (off : Offset) (v : Byte) : Statement (.hwr off v) := by
  refine fun h => ⟨?_, by simpa [encode, Instr.wellFormed] using h⟩
  ext i hi
  interval_cases i <;> simp [encode, busWord, rowMask, rowMatch]

theorem ckey : Statement .ckey := fun _ => by decide

theorem cseed : Statement .cseed := fun _ => by decide

theorem fshift : Statement .fshift := fun _ => by decide

end Sys2Proof.Laws.TableRow
end

