-- ==== Sys2Proof/Laws/Step.lean ====
section
/-!
SUPPORT. What a step, an event and a decoded word can be: the inversion lemmas every later proof starts from.
-/
namespace Sys2Proof.Machine

/-- A step that answers took the first pending event and ran it. -/
theorem step_cases (s t : State) (h : step s = .next t) :
    ∃ ev rest, s.port.pending = ev :: rest ∧
      runEvent ev (s.withPending rest) = .next t := by
  unfold step runNext State.nextEvent? at h
  cases hp : s.port.pending with
  | nil => simp [hp] at h
  | cons ev rest => exact ⟨ev, rest, rfl, by simpa [hp] using h⟩

/-- What a decoded word is, with the fields it came from (R47). -/
theorem decode_cases (w : BusWord) :
    (wordWE w = false ∧ decode w = .instr (.hrd (wordOff w))) ∨
      (wordWE w = true ∧ wordOff w ≠ 0x0A#6 ∧ decode w = .instr (.hwr (wordOff w) (wordData w))) ∨
      (wordWE w = true ∧ wordOff w = 0x0A#6 ∧
        ((wordData w = 0x01#8 ∧ decode w = .instr .ckey) ∨ (wordData w = 0x02#8 ∧ decode w = .instr .cseed) ∨
          (wordData w = 0x03#8 ∧ decode w = .instr .fshift) ∨
          (wordData w ≠ 0x01#8 ∧ wordData w ≠ 0x02#8 ∧ wordData w ≠ 0x03#8 ∧
            decode w = .illegalCommand (wordData w)))) := by
  unfold decode decodeCommand
  cases h : wordWE w <;> simp
  by_cases ho : wordOff w = 0x0A#6 <;> simp [ho]
  by_cases h1 : wordData w = 0x01#8
  · simp [h1]
  by_cases h2 : wordData w = 0x02#8
  · simp [h2]
  by_cases h3 : wordData w = 0x03#8
  · simp [h3]
  simp [h1, h2, h3]

/-- What running one event answers, for each thing the event can be (R7, R47, R87, R95). -/
theorem runEvent_cases (ev : HostEvent) (s : State) :
    (∃ w off, ev = .transaction w ∧ decode w = .instr (.hrd off) ∧
        runEvent ev s = .next (s.respond (regRead off s.engine))) ∨
      (∃ w off v, ev = .transaction w ∧ decode w = .instr (.hwr off v) ∧ off ≠ 0x0A#6 ∧
        runEvent ev s = .next (s.update (regWrite off v))) ∨
      (∃ w, ev = .transaction w ∧ decode w = .instr .ckey ∧ runEvent ev s = .next (s.update deriveKey)) ∨
      (∃ w, ev = .transaction w ∧ decode w = .instr .cseed ∧ runEvent ev s = .next (s.update recoverSeed)) ∨
      (∃ w, ev = .transaction w ∧ decode w = .instr .fshift ∧ runEvent ev s = .next (s.update searchShift)) ∨
      (∃ w v, ev = .transaction w ∧ decode w = .illegalCommand v ∧
        runEvent ev s = .next (s.update Engine.setErrCmd)) ∨
      (ev = .reset ∧ runEvent ev s = .next s.takeReset) := by
  cases ev with
  | reset => simp [runEvent]
  | transaction w =>
    rcases decode_cases w with ⟨_, h⟩ | ⟨_, ho, h⟩ | ⟨_, _, ⟨_, h⟩ | ⟨_, h⟩ | ⟨_, h⟩ | ⟨_, _, _, h⟩⟩
    · exact .inl ⟨w, _, rfl, h, by simp [runEvent, runDecoded, h, exec, execHrd]⟩
    · exact .inr (.inl ⟨w, _, _, rfl, h, ho, by simp [runEvent, runDecoded, h, exec, execHwr]⟩)
    · exact .inr (.inr (.inl ⟨w, rfl, h, by simp [runEvent, runDecoded, h, exec, execCkey]⟩))
    · exact .inr (.inr (.inr (.inl ⟨w, rfl, h, by simp [runEvent, runDecoded, h, exec, execCseed]⟩)))
    · exact .inr (.inr (.inr (.inr (.inl ⟨w, rfl, h, by simp [runEvent, runDecoded, h, exec, execFshift]⟩))))
    · exact .inr (.inr (.inr (.inr (.inr (.inl ⟨w, _, rfl, h, by simp [runEvent, runDecoded, h]; rfl⟩)))))

/-- A step with an event pending is the run of that event. -/
theorem step_cons (s : State) (ev : HostEvent) (rest : List HostEvent) (h : s.port.pending = ev :: rest) :
    step s = runEvent ev (s.withPending rest) := by
  simp [step, runNext, State.nextEvent?, h]

/-- A run of `k + 1` steps whose first answers `t` is the run from `t` with the first response in front. -/
theorem runHost_succ (k : Nat) (s t : State) (h : step s = .next t) :
    runHost (k + 1) s = (runHost k t).map fun r => (r.1, t.port.rdata.toList ++ r.2) := by
  simp only [runHost, h]

end Sys2Proof.Machine
end

