-- ==== Sys2Proof/Machine/AsmText.lean ====
section
/-!
DEFINITION. The text of an assembler line (R54, R55, R56), read into `AsmLine`. Lexical points the spec leaves open are in log
10. Text that is no line of the syntax gives nothing.
-/
namespace Sys2Proof.Machine

/-- Cut a list of characters at every separator. -/
def splitChars (sep : Char → Bool) : List Char → List (List Char)
  | [] => [[]]
  | c :: cs =>
    if sep c then [] :: splitChars sep cs
    else
      match splitChars sep cs with
      | [] => [[c]]
      | t :: ts => (c :: t) :: ts

/-- The words of a line: a semicolon starts a comment (R54); blanks, tabs and commas separate (log 10). -/
def asmTokens (line : List Char) : List (List Char) :=
  (splitChars (fun c => c == ' ' || c == '\t' || c == ',') (line.takeWhile (· ≠ ';'))).filter (! ·.isEmpty)

/-- The sixteen digits in the order of their values; a number in base `b` uses the first `b` of them (R54). -/
def digitOrder : List Char := "0123456789ABCDEF".toList

/-- The value of a digit in a base: its place among the base's digits, a letter in either case (log 10). -/
def digitIn (base : Nat) (c : Char) : Option Nat := (digitOrder.take base).idxOf? c.toUpper

/-- Digits in a base, the most significant first. -/
def readDigits (base : Nat) (cs : List Char) : Option Nat :=
  (cs.mapM (digitIn base)).map (List.foldl (base * · + ·) 0)

/-- A number: hexadecimal with `0x`, or decimal (R54). -/
def readNumber : List Char → Option Nat
  | [] => none
  | '0' :: 'x' :: ds => if ds.isEmpty then none else readDigits 16 ds
  | ds => readDigits 10 ds

/-- A number below a bound. -/
def readBelow (bound : Nat) (cs : List Char) : Option Nat := (readNumber cs).filter (· < bound)

/-- A byte inside a byte-vector listing: a bare two-digit pair (R8). -/
def readPair : List Char → Option Byte
  | [h, l] => (readDigits 16 [h, l]).map (BitVec.ofNat 8)
  | _ => none

/-- The offset a register name stands for (R54). -/
def regNameOffset (cs : List Char) : Option Nat :=
  if cs = "ADDR".toList then some 0x00
  else if cs = "SHIFT".toList then some 0x08
  else if cs = "STATUS".toList then some 0x09
  else if cs = "CMD".toList then some 0x0A
  else if cs = "SEED".toList then some 0x10
  else if cs = "KEY".toList then some 0x20
  else none

/-- An offset: a number, a register name, or a register name plus a number (R54). -/
def readOffset (cs : List Char) : Option Offset :=
  let n : Option Nat :=
    match splitChars (· == '+') cs with
    | [t] => (regNameOffset t).or (readNumber t)
    | [r, k] => (regNameOffset r).bind fun b => (readNumber k).map (b + ·)
    | _ => none
  (n.filter (· < 64)).map (BitVec.ofNat 6)

/-- A list of exactly `n` bytes as a vector. -/
def readVector (n : Nat) (bs : Option (List Byte)) : Option (Vector Byte n) :=
  bs.bind fun l => if h : l.length = n then some (Vector.ofFn fun i => l[i.val]) else none

/-- The register operand of `LD16` and `RD16`. -/
def readBlockReg (cs : List Char) : Option BlockReg :=
  if cs = "SEED".toList then some .seed else if cs = "KEY".toList then some .key else none

/-- The quoted address text of `LDADDRTXT`: eight pairs with colons between them (R56). -/
def readAddrText (cs : List Char) : Option Address :=
  match cs with
  | [] => none
  | q :: rest =>
    if q.toNat = 34 ∧ rest.getLast? = some q then
      readVector 8 ((splitChars (· == ':') rest.dropLast).mapM readPair)
    else none

/-- A line with its mnemonic and operands apart. `HWR` to `CMD` is no line of the syntax (R54). -/
def readLine (m : List Char) (args : List (List Char)) : Option AsmLine :=
  if m = "HRD".toList then
    match args with
    | [o] => (readOffset o).map .hrd
    | _ => none
  else if m = "HWR".toList then
    match args with
    | [o, v] =>
      ((readOffset o).filter (· ≠ 0x0A#6)).bind fun off => (readBelow 256 v).map fun b => .hwr off (BitVec.ofNat 8 b)
    | _ => none
  else if m = "CKEY".toList then if args.isEmpty then some .ckey else none
  else if m = "CSEED".toList then if args.isEmpty then some .cseed else none
  else if m = "FSHIFT".toList then if args.isEmpty then some .fshift else none
  else if m = "RESET".toList then if args.isEmpty then some .reset else none
  else if m = ".word".toList then
    match args with
    | [w] => (readBelow (2 ^ 15) w).map fun n => .word (BitVec.ofNat 15 n)
    | _ => none
  else if m = "LD8".toList then
    match args with
    | r :: bs => if r = "ADDR".toList then (readVector 8 (bs.mapM readPair)).map .ld8 else none
    | _ => none
  else if m = "LD16".toList then
    match args with
    | r :: bs => (readBlockReg r).bind fun reg => (readVector 16 (bs.mapM readPair)).map (.ld16 reg)
    | _ => none
  else if m = "LDSHIFT".toList then
    match args with
    | [n] => (readBelow 16 n).map fun k => .ldshift (BitVec.ofNat 4 k)
    | _ => none
  else if m = "RD8".toList then if args = ["ADDR".toList] then some .rd8 else none
  else if m = "RD16".toList then
    match args with
    | [r] => (readBlockReg r).map .rd16
    | _ => none
  else if m = "RDSHIFT".toList then if args.isEmpty then some .rdshift else none
  else if m = "RDSTATUS".toList then if args.isEmpty then some .rdstatus else none
  else if m = "LDADDRTXT".toList then
    match args with
    | [t] => (readAddrText t).map .ldaddrtxt
    | _ => none
  else none

/-- The lines a text line stands for: none for a blank or comment line, one otherwise (R54). -/
def parseLine (line : List Char) : Option (List AsmLine) :=
  match asmTokens line with
  | [] => some []
  | m :: args => (readLine m args).map ([·])

/-- A program text, one instruction per line (R54), as host events; nothing if some line is no line of the syntax. -/
def assembleText (order : AddrTextOrder) (text : List Char) : Option (List HostEvent) :=
  ((splitChars (· == '\n') text).mapM parseLine).map fun ls => assemble order ls.flatten

end Sys2Proof.Machine
end

