-- ==== Sys2Proof/Tests/Slice0.lean ====
section
/-!
SUPPORT. Tests. Expected results are from spec/95_test_vectors.md (E3, V1 to V8, P1 to P3), from the examples in the rules, or
counted by hand from a rule named in the comment. The last sections give, for each obligation with hypotheses, a state and
operands that meet them together, clause by clause at the ends of each range.
-/
namespace Sys2Proof.Machine

/-! Helpers. -/

/-- The vectors the document's concrete case and table V2 use. -/
def tAddr : Address := #v[0x00, 0x01, 0x02, 0x03, 0x04, 0x05, 0x06, 0x07]
def tSeed : Block :=
  #v[0x00, 0x01, 0x02, 0x03, 0x04, 0x05, 0x06, 0x07, 0x08, 0x09, 0x0A, 0x0B, 0x0C, 0x0D, 0x0E, 0x0F]
def tKey3 : Block :=
  #v[0x03, 0x05, 0x07, 0x05, 0x03, 0x0D, 0x0F, 0x0D, 0x0B, 0x0D, 0x0F, 0x0D, 0x0B, 0x05, 0x07, 0x05]
def uAddr : Address := #v[0x12, 0x34, 0x56, 0x78, 0x9A, 0xBC, 0xDE, 0xF0]
def uSeed : Block :=
  #v[0xA0, 0xB1, 0xC2, 0xD3, 0xE4, 0xF5, 0x06, 0x17, 0x28, 0x39, 0x4A, 0x5B, 0x6C, 0x7D, 0x8E, 0x9F]
def uKey : Block :=
  #v[0xFF, 0xEE, 0xDD, 0xCC, 0xBB, 0xAA, 0x99, 0x88, 0x77, 0x66, 0x55, 0x44, 0x33, 0x22, 0x11, 0x00]

/-- A state with the given registers and events. -/
def tState (a : Address) (seed key : Block) (sh : Shift) (pending : List HostEvent) : State where
  engine := { addr := a, seed := seed, key := key, shift := sh, matched := false, errCmd := false }
  port := { pending := pending, rdata := none }

/-- The next state of an outcome, if there is one. -/
def stateOf (o : Host.Outcome State Fault Refusal) : Option State :=
  match o with
  | .next s => some s
  | .fault _ => none
  | .refused _ => none

/-- One step on one raw word. -/
def stepWord (s : State) (w : Nat) : Option State := stateOf (step (s.withFetchWord 16 w))

/-! Well-formedness: the one check, and the term it refuses (R53, R61). -/

theorem test_wf_refuses_hwr_to_cmd : (Instr.hwr 0x0A#6 0x01#8).wellFormed = false := by decide
theorem test_wf_accepts_the_rest :
    (Instr.hwr 0x0B#6 0x01#8).wellFormed = true ∧ (Instr.hwr 0x09#6 0x01#8).wellFormed = true ∧
      (Instr.hrd 0x0A#6).wellFormed = true ∧ Instr.ckey.wellFormed = true ∧ Instr.cseed.wellFormed = true ∧
      Instr.fshift.wellFormed = true := by decide

/-! Decoding, each word written out bit by bit from R53 and table V7: WE, OFF, WDATA. -/

theorem test_decode_hrd : decode 0b0_001001_00000000#15 = .instr (.hrd 0x09#6) := by decide
theorem test_decode_hrd_ignores_data : decode 0b0_001001_11111111#15 = .instr (.hrd 0x09#6) := by decide
theorem test_decode_hrd_of_cmd_is_no_command : decode 0b0_001010_00000001#15 = .instr (.hrd 0x0A#6) := by decide
theorem test_decode_hwr : decode 0b1_010011_10101011#15 = .instr (.hwr 0x13#6 0xAB#8) := by decide
theorem test_decode_hwr_last : decode 0b1_111111_11111111#15 = .instr (.hwr 0x3F#6 0xFF#8) := by decide
theorem test_decode_hwr_next_to_cmd : decode 0b1_001011_00000001#15 = .instr (.hwr 0x0B#6 0x01#8) := by decide
theorem test_decode_ckey : decode 0b1_001010_00000001#15 = .instr .ckey := by decide
theorem test_decode_cseed : decode 0b1_001010_00000010#15 = .instr .cseed := by decide
theorem test_decode_fshift : decode 0b1_001010_00000011#15 = .instr .fshift := by decide
theorem test_decode_illegal_zero : decode 0b1_001010_00000000#15 = .illegalCommand 0x00#8 := by decide
theorem test_decode_illegal_compares_all_bits : decode 0b1_001010_10000001#15 = .illegalCommand 0x81#8 := by decide
theorem test_table_words :
    decodeTableWord 16 0x0000 = some (.hrd 0x00#6) ∧ decodeTableWord 16 0x4000 = some (.hwr 0x00#6 0x00#8) ∧
      decodeTableWord 16 0x4A01 = some .ckey ∧ decodeTableWord 16 0x4A02 = some .cseed ∧
      decodeTableWord 16 0x4A03 = some .fshift ∧ decodeTableWord 16 0x4A04 = none ∧
      decodeTableWord 16 0x8000 = none := by decide

/-! Instructions: table V6, the examples of R60 and R61, tables V1 to V5. -/

theorem test_hrd_status_after_reset : (stepWord .reset 0x0900).map (·.port.rdata) = some (some 0x00#8) := by decide
theorem test_hrd_key_byte :
    (stepWord (tState tAddr tSeed tKey3 3#4 []) 0x2500).map (·.port.rdata) = some (some 0x0D#8) := by decide
theorem test_hwr_seed_byte :
    (stepWord .reset 0x53AB).map (·.engine) = some { Engine.reset with seed := Engine.reset.seed.set 3 0xAB#8 } := by
  decide
theorem test_hwr_shift_truncates : (stepWord .reset 0x48F3).map (·.engine.shift) = some 3#4 := by decide
theorem test_ckey_v2_shift_15 :
    (stepWord (tState uAddr uSeed uKey 15#4 []) 0x4A01).map (·.engine.key) =
      some #v[0x8D, 0x94, 0xE7, 0xBA, 0x49, 0x58, 0x2B, 0xF6, 0x05, 0x1C, 0x6F, 0x32, 0xC1, 0xD0, 0xA3, 0x7E] := by
  decide
theorem test_ckey_v1_shift_3 :
    (stepWord (tState tAddr tSeed uKey 3#4 []) 0x4A01).map (·.engine.key) = some tKey3 := by decide
theorem test_cseed_v3_shift_9 :
    (stepWord (tState uAddr uSeed uKey 9#4 []) 0x4A02).map (·.engine.seed) =
      some #v[0x78, 0x65, 0x52, 0x03, 0x3C, 0xA9, 0x9E, 0xCF, 0xF0, 0xED, 0xDA, 0x8B, 0xB4, 0x21, 0x16, 0x47] := by
  decide
theorem test_cseed_v3_shift_4 :
    (stepWord (tState uAddr uSeed uKey 4#4 []) 0x4A02).map (·.engine.seed) =
      some #v[0xA9, 0x9E, 0xCF, 0xF0, 0xED, 0xDA, 0x8B, 0xB4, 0x21, 0x16, 0x47, 0x78, 0x65, 0x52, 0x03, 0x3C] := by
  decide
/-- V1 read in reverse: the search ignores the old `SHIFT`. -/
theorem test_fshift_v1 :
    (stepWord (tState tAddr tSeed tKey3 9#4 []) 0x4A03).map (fun s => (s.engine.matched, s.engine.shift)) =
      some (true, 3#4) := by decide
/-- V4, first row: no match leaves `SHIFT`. -/
theorem test_fshift_v4_no_match :
    (stepWord (tState uAddr uSeed uKey 7#4 []) 0x4A03).map (fun s => (s.engine.matched, s.engine.shift)) =
      some (false, 7#4) := by decide

/-- V5, period 4, key made at shift 15: the least fitting shift is 3. -/
theorem test_fshift_v5_period_4 :
    let seed : Block := #v[1, 2, 3, 4, 1, 2, 3, 4, 1, 2, 3, 4, 1, 2, 3, 4]
    period seed = 4 ∧
      findKeyShift uAddr
        #v[0x16, 0x35, 0x54, 0x7B, 0x9E, 0xBD, 0xDC, 0xF3, 0x16, 0x35, 0x54, 0x7B, 0x9E, 0xBD, 0xDC, 0xF3] seed =
        some 3#4 := by decide
theorem test_periods :
    period (Vector.replicate 16 0x00#8) = 1 ∧
      period #v[0xAA, 0x55, 0xAA, 0x55, 0xAA, 0x55, 0xAA, 0x55, 0xAA, 0x55, 0xAA, 0x55, 0xAA, 0x55, 0xAA, 0x55] = 2 ∧
      period #v[1, 2, 3, 4, 5, 6, 7, 8, 1, 2, 3, 4, 5, 6, 7, 8] = 8 ∧ period tSeed = 16 := by decide

/-! Illegal commands, reset, and no event: P3 rows 5 and 18, V8, R7. -/

theorem test_illegal_command_zero :
    (stepWord .reset 0x4A00).map (·.engine) = some { Engine.reset with errCmd := true } := by decide
/-- P3 row 18: `CKEY` executes although `ERR_CMD` is 1. -/
theorem test_ckey_runs_with_err_cmd :
    (stepWord { (tState tAddr tSeed uKey 15#4 []) with
        engine := { addr := tAddr, seed := tSeed, key := uKey, shift := 15#4, matched := false, errCmd := true } } 0x4A01).map
      (fun s => (s.engine.errCmd, s.engine.key)) =
      some (true, #v[0x0F, 0x01, 0x03, 0x01, 0x07, 0x01, 0x03, 0x01, 0x07, 0x09, 0x0B, 0x09, 0x0F, 0x09, 0x0B, 0x09]) := by
  decide
theorem test_reset_event :
    (stateOf (step (tState uAddr uSeed uKey 7#4 [.reset]))).map (·.engine) = some Engine.reset := by decide
theorem test_no_event_is_no_step : stateOf (step .reset) = none := by decide

/-! The assembler's text: lines of P1 to P3, with their words. -/

theorem test_text_hwr_register_sum :
    assembleText .asWritten "HWR SEED+3, 0xAB ; a comment".toList = some [.transaction 0x53AB#15] := by decide
theorem test_text_p1_first_lines :
    assembleText .asWritten "RESET\nLD8   ADDR, 00 01 02 03 04 05 06 07\nLDSHIFT 3\nCKEY".toList =
      some [.reset, .transaction 0x4000#15, .transaction 0x4101#15, .transaction 0x4202#15, .transaction 0x4303#15,
        .transaction 0x4404#15, .transaction 0x4505#15, .transaction 0x4606#15, .transaction 0x4707#15,
        .transaction 0x4803#15, .transaction 0x4A01#15] := by decide
theorem test_text_ldaddrtxt_reversed :
    assembleText .reversed "LDADDRTXT \"00:01:02:03:04:05:06:07\"".toList =
      some [.transaction 0x4007#15, .transaction 0x4106#15, .transaction 0x4205#15, .transaction 0x4304#15,
        .transaction 0x4403#15, .transaction 0x4502#15, .transaction 0x4601#15, .transaction 0x4700#15] := by decide
theorem test_text_raw_word_and_reads :
    assembleText .asWritten ".word 0x4A04\nRDSTATUS\nRDSHIFT\n\nHRD KEY+15".toList =
      some [.transaction 0x4A04#15, .transaction 0x0900#15, .transaction 0x0800#15, .transaction 0x2F00#15] := by decide
theorem test_text_refuses_hwr_to_cmd : assembleText .asWritten "HWR CMD, 1".toList = none := by decide

/-! The platform. -/

theorem test_window_ends :
    selectOffset 0x100 0x100 = some 0x00#6 ∧ selectOffset 0x100 0x13F = some 0x3F#6 ∧
      selectOffset 0x100 0x140 = none ∧ selectOffset 0x100 0xFF = none := by decide

/-! Witnesses: the step and the encoding. -/

theorem witness_StepRunsTheDecodedInstruction :
    (tState uAddr uSeed uKey 7#4 [.transaction 0x4A01#15, .reset]).port.pending = .transaction 0x4A01#15 :: [.reset] ∧
      decode 0x4A01#15 = .instr .ckey := by decide
theorem witness_StepRunsTheOtherHostEvents :
    (tState uAddr uSeed uKey 7#4 [.transaction 0x4A00#15]).port.pending = .transaction 0x4A00#15 :: [] ∧
      decode 0x4A00#15 = .illegalCommand 0x00#8 ∧
      (tState uAddr uSeed uKey 7#4 [.reset]).port.pending = .reset :: [] ∧ State.reset.port.pending = [] := by decide
theorem witness_PlacedWordRunsNext : decodeTableWord 16 0x7FFF = some (.hwr 0x3F#6 0xFF#8) := by decide
theorem witness_OpcodeMapWords : (0x00#6 : Offset) ≠ 0x0A#6 ∧ (0x3F#6 : Offset) ≠ 0x0A#6 := by decide
theorem witness_DecodeInvertsEncode :
    (Instr.hrd 0x3F#6).wellFormed = true ∧ (Instr.hwr 0x00#6 0xFF#8).wellFormed = true ∧ Instr.ckey.wellFormed = true := by
  decide
theorem witness_EncodeInvertsDecode :
    decode 0x3FFF#15 = .instr (.hrd 0x3F#6) ∧ decode 0x4000#15 = .instr (.hwr 0x00#6 0x00#8) ∧
      decode 0x4AFF#15 = .illegalCommand 0xFF#8 := by decide

/-! Witnesses: the window, each clause at the ends of its range. -/

/-- Both ends of every range of the register map, in the order of the clauses of the read and the write statement. -/
theorem witness_HostReadReturnsTheWindowByte :
    (0x00#6 : Offset).toNat = (0 : Fin 8).val ∧ (0x07#6 : Offset).toNat = (7 : Fin 8).val ∧
      0x0B ≤ (0x0B#6 : Offset).toNat ∧ (0x0F#6 : Offset).toNat ≤ 0x0F ∧
      (0x10#6 : Offset).toNat = 0x10 + (0 : Fin 16).val ∧ (0x1F#6 : Offset).toNat = 0x10 + (15 : Fin 16).val ∧
      (0x20#6 : Offset).toNat = 0x20 + (0 : Fin 16).val ∧ (0x2F#6 : Offset).toNat = 0x20 + (15 : Fin 16).val ∧
      0x30 ≤ (0x30#6 : Offset).toNat ∧ 0x30 ≤ (0x3F#6 : Offset).toNat := by decide
/-- What the read gives at those ends, from R34, in a state whose registers all differ. -/
theorem test_read_at_range_ends :
    ([0x00, 0x07, 0x08, 0x09, 0x0A, 0x0B, 0x0F, 0x10, 0x1F, 0x20, 0x2F, 0x30, 0x3F].map fun n =>
      regRead (BitVec.ofNat 6 n) { addr := uAddr, seed := uSeed, key := uKey, shift := 13#4, matched := true, errCmd := true }) =
      [0x12, 0xF0, 0x0D, 0x03, 0x00, 0x00, 0x00, 0xA0, 0x9F, 0xFF, 0x00, 0x00, 0x00] := by decide
theorem witness_HostWriteStoresItsByte :
    ∀ n ∈ [0x00, 0x07, 0x08, 0x09, 0x0B, 0x0F, 0x10, 0x1F, 0x20, 0x2F, 0x30, 0x3F], BitVec.ofNat 6 n ≠ 0x0A#6 := by decide
/-- What the write leaves at those ends, from R35. -/
theorem test_write_at_range_ends :
    ([0x00, 0x07, 0x08, 0x09, 0x0B, 0x0F, 0x10, 0x1F, 0x20, 0x2F, 0x30, 0x3F].map fun n =>
      regRead (BitVec.ofNat 6 n) (regWrite (BitVec.ofNat 6 n) 0x5A#8 Engine.reset)) =
      [0x5A, 0x5A, 0x0A, 0x00, 0x00, 0x00, 0x5A, 0x5A, 0x5A, 0x5A, 0x00, 0x00] := by decide
theorem witness_HostWriteTouchesOneWindowByte :
    (0x1F#6 : Offset) ≠ 0x0A#6 ∧ (0x20#6 : Offset) ≠ 0x1F#6 ∧ operandOffset 0x1F#6 = true ∧
      operandOffset 0x00#6 = true ∧ operandOffset 0x2F#6 = true ∧ operandOffset 0x30#6 = false ∧
      operandOffset 0x09#6 = false ∧ operandOffset 0x0F#6 = false := by decide
theorem witness_ReadOnlyWriteOnlyAndReservedOffsets :
    (∀ n ∈ [0x09, 0x0B, 0x0F, 0x30, 0x3F],
      let off : Offset := BitVec.ofNat 6 n
      off = 0x09#6 ∨ (0x0B ≤ off.toNat ∧ off.toNat ≤ 0x0F) ∨ 0x30 ≤ off.toNat) ∧
    (∀ n ∈ [0x0A, 0x0B, 0x0F, 0x30, 0x3F],
      let off : Offset := BitVec.ofNat 6 n
      off = 0x0A#6 ∨ (0x0B ≤ off.toNat ∧ off.toNat ≤ 0x0F) ∨ 0x30 ≤ off.toNat) := by decide
/-- A write of `SHIFT`, then every kind of event that leaves it: a write elsewhere, an ignored write, a read, an illegal command,
`CKEY` and `CSEED`. -/
theorem witness_ReadSeesTheLatestWrite :
    let evs : List HostEvent := [.transaction 0x4000#15, .transaction 0x49FF#15, .transaction 0x0900#15, .transaction 0x4A00#15,
      .transaction 0x4A01#15, .transaction 0x4A02#15]
    operandOffset 0x08#6 = true ∧ (∀ ev ∈ evs, ev.leavesByte 0x08#6 = true) ∧
      (tState uAddr uSeed uKey 7#4 (.transaction 0x481F#15 :: evs ++ [.transaction 0x0800#15])).port.pending =
        .transaction (encode (.hwr 0x08#6 0x1F#8)) :: evs ++ .transaction (encode (.hrd 0x08#6)) :: [] := by decide
/-- Which bytes each command leaves, at the ends of the registers (R65, R66, R75). -/
theorem test_commands_leave_the_other_bytes :
    (∀ n ∈ [0x00, 0x07, 0x08, 0x09, 0x10, 0x1F, 0x30], (HostEvent.transaction 0x4A01#15).leavesByte (BitVec.ofNat 6 n) = true) ∧
      (∀ n ∈ [0x00, 0x07, 0x08, 0x09, 0x0F, 0x20, 0x2F], (HostEvent.transaction 0x4A02#15).leavesByte (BitVec.ofNat 6 n) = true) ∧
      (∀ n ∈ [0x00, 0x07, 0x10, 0x1F, 0x20, 0x2F], (HostEvent.transaction 0x4A03#15).leavesByte (BitVec.ofNat 6 n) = true) ∧
      (∀ n ∈ [0x20, 0x2F], (HostEvent.transaction 0x4A01#15).leavesByte (BitVec.ofNat 6 n) = false) ∧
      (∀ n ∈ [0x10, 0x1F], (HostEvent.transaction 0x4A02#15).leavesByte (BitVec.ofNat 6 n) = false) ∧
      (∀ n ∈ [0x08, 0x09], (HostEvent.transaction 0x4A03#15).leavesByte (BitVec.ofNat 6 n) = false) := by decide
/-- Each clause at the ends of its register, with a run of events that leave the byte. -/
theorem witness_ReadSeesTheLatestCommandOrReset :
    let word (w : BusWord) : HostEvent := .transaction w
    ((word 0x4A01#15).isInstr .ckey = true ∧ (0x20#6 : Offset).toNat = 0x20 + (0 : Fin 16).val ∧
        (0x2F#6 : Offset).toNat = 0x20 + (15 : Fin 16).val ∧ (word 0x4A02#15).leavesByte 0x2F#6 = true) ∧
      ((word 0x4A02#15).isInstr .cseed = true ∧ (0x10#6 : Offset).toNat = 0x10 + (0 : Fin 16).val ∧
        (0x1F#6 : Offset).toNat = 0x10 + (15 : Fin 16).val ∧ (word 0x4A03#15).leavesByte 0x1F#6 = true) ∧
      ((word 0x4A03#15).isInstr .fshift = true ∧ (word 0x4A01#15).leavesByte 0x08#6 = true ∧
        (word 0x4A01#15).leavesByte 0x09#6 = true) ∧
      ((word 0x4A04#15).isIllegal = true ∧ (word 0x49FF#15).leavesByte 0x09#6 = true) ∧
      ((word 0x4A03#15).leavesByte 0x1F#6 = true ∧ (word 0x4000#15).leavesByte 0x3F#6 = true) ∧
      (tState uAddr uSeed uKey 7#4 [word 0x4A01#15, word 0x4A02#15, word 0x2F00#15]).port.pending =
        word 0x4A01#15 :: [word 0x4A02#15] ++ .transaction (encode (.hrd 0x2F#6)) :: [] := by decide

/-! Witnesses: commands, reset, laws. -/

theorem witness_CommandCodesSelectTheOperation :
    findKeyShift tAddr tKey3 tSeed = some 3#4 ∧ findKeyShift uAddr uKey uSeed = none ∧
      (∀ v ∈ [0x00#8, 0x04#8, 0xFF#8], v = 0x00#8 ∨ 0x04 ≤ v.toNat) ∧ ¬ (0x04 ≤ (0x03#8 : Byte).toNat) := by decide
/-- The two cases of the search, by the key form of the test (R77): shift 3 fits in the first state, none in the second. -/
theorem witness_FshiftFindsTheLeastFittingShift :
    (∀ i : Fin 16, tKey3[(i.val + 16 - 3) % 16] ^^^ tAddr[((i.val + 16 - 3) % 16) % 8] = tSeed[i]) ∧
      (∀ n < 16, ¬ ∀ i : Fin 16, uKey[(i.val + 16 - n) % 16] ^^^ uAddr[((i.val + 16 - n) % 16) % 8] = uSeed[i]) := by
  decide
theorem witness_IllegalCommandSetsOnlyErrCmd :
    (∀ v ∈ [0x00#8, 0x04#8, 0xFF#8], v = 0x00#8 ∨ 0x04 ≤ v.toNat) ∧
      (HostEvent.transaction 0x4A03#15).isIllegal = false ∧ HostEvent.reset.isIllegal = false := by decide
theorem witness_ErrCmdIsStickyAndTransparent :
    HostEvent.transaction 0x4A01#15 ≠ .reset ∧ ((stepWord .reset 0x4AFF).map (·.engine.errCmd)) = some true ∧
      (HostEvent.transaction 0x0800#15).isInstr (.hrd 0x09#6) = false := by decide
theorem witness_MatchReportsTheLatestSearch :
    HostEvent.transaction 0x4A01#15 ≠ .reset ∧ (HostEvent.transaction 0x4A01#15).isInstr .fshift = false ∧
      (HostEvent.transaction 0x4A03#15).isInstr .fshift = true := by decide
/-- Two states with different bytes that agree where the lane of byte 0 looks. -/
theorem witness_DerivationLanesAreIndependent :
    let s := tState uAddr uSeed uKey 1#4 []
    let s' := tState uAddr (uSeed.set 0 0x00#8) (uKey.set 0 0x00#8) 1#4 []
    s ≠ s' ∧ s.engine.shift = s'.engine.shift ∧
      s.engine.seed[(0 + s.engine.shift.toNat) % 16].getLsbD 0 = s'.engine.seed[(0 + s.engine.shift.toNat) % 16].getLsbD 0 ∧
      s.engine.addr[0].getLsbD 0 = s'.engine.addr[0].getLsbD 0 ∧
      s.engine.key[(0 + 16 - s.engine.shift.toNat) % 16].getLsbD 0 =
        s'.engine.key[(0 + 16 - s.engine.shift.toNat) % 16].getLsbD 0 ∧
      s.engine.addr[(0 + 16 - s.engine.shift.toNat) % 8].getLsbD 0 =
        s'.engine.addr[(0 + 16 - s.engine.shift.toNat) % 8].getLsbD 0 := by decide
/-- Three pairs of different states, one for each clause. -/
theorem witness_CommandResultsDependOnTheirOperandsOnly :
    let s := tState tAddr tSeed tKey3 3#4 []
    let k := tState tAddr tSeed uKey 3#4 []
    let d := tState tAddr uSeed tKey3 3#4 []
    let h := tState tAddr tSeed tKey3 9#4 []
    (s ≠ k ∧ s.engine.addr = k.engine.addr ∧ s.engine.seed = k.engine.seed ∧ s.engine.shift = k.engine.shift) ∧
      (s ≠ d ∧ s.engine.addr = d.engine.addr ∧ s.engine.key = d.engine.key ∧ s.engine.shift = d.engine.shift) ∧
      (s ≠ h ∧ s.engine.addr = h.engine.addr ∧ s.engine.key = h.engine.key ∧ s.engine.seed = h.engine.seed ∧
        (searchShift s.engine).matched = true) := by decide
theorem witness_FittingShiftsAreAResidueClass :
    (16 ∈ [1, 2, 4, 8, 16] ∧ rotl tSeed 16 = tSeed) ∧ (1 ∈ [1, 2, 4, 8, 16] ∧
      rotl (Vector.replicate 16 0x00#8) 1 = Vector.replicate 16 0x00#8) ∧
      computeSeed tAddr tKey3 (3#4).toNat = tSeed := by decide
theorem witness_FshiftAfterCkeyFindsTheShiftModuloThePeriod :
    (tState tAddr tSeed uKey 15#4 []).engine.shift.toNat < period (tState tAddr tSeed uKey 15#4 []).engine.seed ∧
      (tState uAddr (Vector.replicate 16 0x00#8) uKey 3#4 []).engine.seed = Vector.replicate 16 0x00#8 ∧
      (tState uAddr (Vector.replicate 16 0x00#8) uKey 3#4 []).engine.shift = 3#4 := by decide
theorem witness_FshiftMatchIsSound :
    (stateOf (exec .fshift (tState tAddr tSeed tKey3 9#4 []))).map (·.engine.matched) = some true := by decide
theorem witness_FshiftMissIsComplete :
    (stateOf (exec .fshift (tState uAddr uSeed uKey 7#4 []))).map (·.engine.matched) = some false := by decide

/-! Witnesses: invariants, programs, platform. -/

theorem witness_ErrFreeIsKeptByEveryStep :
    (tState uAddr uSeed uKey 7#4 [.transaction 0x4A01#15, .transaction 0x0900#15]).ErrFree ∧
      ∃ t, step (tState uAddr uSeed uKey 7#4 [.transaction 0x4A01#15, .transaction 0x0900#15]) = .next t :=
  ⟨by decide, _, rfl⟩
theorem witness_ConsistencyIsKeptByEveryStep :
    (tState tAddr tSeed tKey3 3#4 [.transaction 0x4A03#15, .transaction 0x4A02#15, .transaction 0x4A00#15]).Consistent ∧
      ∃ t, step (tState tAddr tSeed tKey3 3#4
        [.transaction 0x4A03#15, .transaction 0x4A02#15, .transaction 0x4A00#15]) = .next t :=
  ⟨by decide, _, rfl⟩
/-- A load in descending order. -/
theorem witness_LoadsInAnyOrderAndReadsInIndexOrder :
    (expandLd8 uAddr).reverse ≠ expandLd8 uAddr ∧ (expandLd8 uAddr).reverse.Perm (expandLd8 uAddr) ∧
      (expandLd16 .seed uSeed).reverse.Perm (expandLd16 .seed uSeed) ∧
      (expandLd16 .key uKey).reverse.Perm (expandLd16 .key uKey) :=
  ⟨by decide, List.reverse_perm _, List.reverse_perm _, List.reverse_perm _⟩
theorem witness_AddressTextOrder : ∀ ts, AsmLine.ld8 uAddr ≠ .ldaddrtxt ts := fun _ h => nomatch h
theorem witness_BaseSelectsTheWindow :
    Config.base + 64 < Config.base ∨ Config.base + 63 < Config.base + 64 := .inr (Nat.lt_succ_self _)

end Sys2Proof.Machine
end

section
/-!
PROOFS. What a host event does, as a function of the engine alone: one equation for the run of an event (R47, R95), and one
equation for what the two flags `MATCH` and `ERR_CMD` mean to it (R16, R17).
-/
namespace Sys2Proof.Machine

/-- The engine after a decoded transaction (R47): a read leaves it, an illegal command raises `ERR_CMD` (R87). -/
def decodedEffect : Decoded → Engine → Engine
  | .instr (.hrd _) => id
  | .instr (.hwr off v) => regWrite off v
  | .instr .ckey => deriveKey
  | .instr .cseed => recoverSeed
  | .instr .fshift => searchShift
  | .illegalCommand _ => Engine.setErrCmd

/-- The byte a decoded transaction returns: only a read returns one (R46, R60). -/
def decodedResponse : Decoded → Engine → Option Byte
  | .instr (.hrd off), e => some (regRead off e)
  | _, _ => none

/-- The engine after a host event. -/
def HostEvent.effect : HostEvent → Engine → Engine
  | .transaction w => decodedEffect (decode w)
  | .reset => fun _ => Engine.reset

/-- The byte a host event returns. -/
def HostEvent.response : HostEvent → Engine → Option Byte
  | .transaction w => decodedResponse (decode w)
  | .reset => fun _ => none

/-- The state after a host event. -/
def HostEvent.after (ev : HostEvent) (s : State) : State where
  engine := ev.effect s.engine
  port := { pending := s.port.pending, rdata := ev.response s.engine }

/-- Every event completes, in the state `after` names. -/
theorem runEvent_eq_after (ev : HostEvent) (s : State) : runEvent ev s = .next (ev.after s) := by
  cases ev with
  | reset => rfl
  | transaction w =>
    simp only [runEvent, HostEvent.after, HostEvent.effect, HostEvent.response]
    cases decode w with
    | instr i => cases i <;> rfl
    | illegalCommand v => rfl

/-- The engine with its two flags replaced. -/
def Engine.withFlags (m c : Bool) (e : Engine) : Engine := { e with matched := m, errCmd := c }

/-- What an event makes of `MATCH`, found at `m` in an engine with the operands of `e`: `FSHIFT` and reset write it (R16). -/
def HostEvent.nextMatch (ev : HostEvent) (e : Engine) (m : Bool) : Bool :=
  if ev = .reset then false
  else if ev.isInstr .fshift then matchAfter (findKeyShift e.addr e.key e.seed)
  else m

/-- What an event makes of `ERR_CMD`, found at `c`: an illegal command sets it and reset clears it (R17). -/
def HostEvent.nextErrCmd (ev : HostEvent) (c : Bool) : Bool :=
  if ev = .reset then false else c || ev.isIllegal

/-- A host write to any offset but `CMD` neither reads nor writes a flag (R35). -/
theorem regWrite_withFlags (off : Offset) (v : Byte) (e : Engine) (m c : Bool) (hcmd : off ≠ 0x0A#6) :
    regWrite off v (e.withFlags m c) = (regWrite off v e).withFlags m c := by
  rcases offset_rows off with ⟨i, h⟩ | h | h | h | h | ⟨i, h⟩ | ⟨i, h⟩ | h
  · simp only [regWrite_addr _ _ _ i h]; rfl
  · simp only [regWrite_shift _ _ _ h]; rfl
  · simp only [regWrite_ignored _ _ _ (.inl h)]
  · exact absurd (BitVec.eq_of_toNat_eq h) hcmd
  · simp only [regWrite_ignored _ _ _ (.inr (.inl h))]
  · simp only [regWrite_seed _ _ _ i h]; rfl
  · simp only [regWrite_key _ _ _ i h]; rfl
  · simp only [regWrite_ignored _ _ _ (.inr (.inr h))]

/-- A read of any offset but `STATUS` sees no flag (R34). -/
theorem regRead_withFlags (off : Offset) (e : Engine) (m c : Bool) (hst : off ≠ 0x09#6) :
    regRead off (e.withFlags m c) = regRead off e := by
  have hst : off.toNat ≠ 0x09 := fun h => hst (BitVec.eq_of_toNat_eq h)
  simp [regRead, hst, Engine.withFlags]

theorem deriveKey_withFlags (e : Engine) (m c : Bool) :
    deriveKey (e.withFlags m c) = (deriveKey e).withFlags m c := rfl

theorem recoverSeed_withFlags (e : Engine) (m c : Bool) :
    recoverSeed (e.withFlags m c) = (recoverSeed e).withFlags m c := rfl

/-- A search overwrites `MATCH` with an outcome that depends on the operands only (R75). -/
theorem searchShift_withFlags (e : Engine) (m c : Bool) :
    searchShift (e.withFlags m c) =
      (searchShift e).withFlags (matchAfter (findKeyShift e.addr e.key e.seed)) c := by
  simp only [searchShift, Engine.withFlags, Engine.setShift, Engine.setMatch]

theorem setErrCmd_withFlags (e : Engine) (m c : Bool) :
    (e.withFlags m c).setErrCmd = e.setErrCmd.withFlags m true := rfl

/-- `MATCH` and `ERR_CMD` influence only themselves, under every event (R16, R17). -/
theorem effect_withFlags (ev : HostEvent) (e : Engine) (m c : Bool) :
    ev.effect (e.withFlags m c) = (ev.effect e).withFlags (ev.nextMatch e m) (ev.nextErrCmd c) := by
  cases ev with
  | reset => rfl
  | transaction w =>
    simp only [HostEvent.effect, HostEvent.nextMatch, HostEvent.nextErrCmd, HostEvent.isInstr, HostEvent.isIllegal]
    rcases decode_cases w with ⟨_, h⟩ | ⟨_, ho, h⟩ | ⟨_, _, ⟨_, h⟩ | ⟨_, h⟩ | ⟨_, h⟩ | ⟨_, _, _, h⟩⟩
    · simp [h, decodedEffect]
    · simp [h, decodedEffect, regWrite_withFlags _ _ _ _ _ ho]
    · simp [h, decodedEffect, deriveKey_withFlags]
    · simp [h, decodedEffect, recoverSeed_withFlags]
    · simp [h, decodedEffect, searchShift_withFlags]
    · simp [h, decodedEffect, setErrCmd_withFlags]

/-- `MATCH` after an event. -/
theorem effect_matched (ev : HostEvent) (e : Engine) : (ev.effect e).matched = ev.nextMatch e e.matched :=
  congrArg Engine.matched (effect_withFlags ev e e.matched e.errCmd)

/-- `ERR_CMD` after an event. -/
theorem effect_errCmd (ev : HostEvent) (e : Engine) : (ev.effect e).errCmd = ev.nextErrCmd e.errCmd :=
  congrArg Engine.errCmd (effect_withFlags ev e e.matched e.errCmd)

/-- Changing `ERR_CMD` before an event changes no other register after it. -/
theorem effect_of_errCmd_changed (ev : HostEvent) (e : Engine) (c : Bool) :
    ev.effect { e with errCmd := c } = { ev.effect e with errCmd := ev.nextErrCmd c } := by
  rw [show ev.effect { e with errCmd := c } = _ from effect_withFlags ev e e.matched c, ← effect_matched]
  rfl

/-- Changing `MATCH` before an event changes no other register after it. -/
theorem effect_of_matched_changed (ev : HostEvent) (e : Engine) (m : Bool) :
    ev.effect { e with matched := m } = { ev.effect e with matched := ev.nextMatch e m } := by
  rw [show ev.effect { e with matched := m } = _ from effect_withFlags ev e m e.errCmd, ← effect_errCmd]
  rfl

/-- Only a read of `STATUS` returns anything that depends on a flag. -/
theorem response_withFlags (ev : HostEvent) (e : Engine) (m c : Bool) (hst : ev.isInstr (.hrd 0x09#6) = false) :
    ev.response (e.withFlags m c) = ev.response e := by
  cases ev with
  | reset => rfl
  | transaction w =>
    have hst : decode w ≠ .instr (.hrd 0x09#6) := by simpa [HostEvent.isInstr] using hst
    simp only [HostEvent.response]
    cases h : decode w with
    | illegalCommand v => rfl
    | instr i =>
      cases i with
      | hrd off => exact congrArg some (regRead_withFlags off e m c fun ho => hst (by rw [h, ho]))
      | hwr _ _ | ckey | cseed | fshift => rfl

/-- A write to `CMD` of a byte that names no operation is an illegal command (R51). -/
theorem decode_illegal_write (v : Byte) (hv : v = 0x00#8 ∨ 0x04 ≤ v.toNat) :
    decode (busWord true 0x0A#6 v) = .illegalCommand v := by
  have h1 : v ≠ 0x01#8 := by rintro rfl; simp at hv
  have h2 : v ≠ 0x02#8 := by rintro rfl; simp at hv
  have h3 : v ≠ 0x03#8 := by rintro rfl; simp at hv
  simp [decode, decodeCommand, h1, h2, h3]

/-! ## The byte `STATUS` reads as (R15) -/

theorem statusByte_toNat (m c : Bool) : (statusByte m c).toNat = c.toNat <<< 1 ||| m.toNat := by
  cases m <;> cases c <;> decide

theorem statusByte_bit_zero (m c : Bool) : (statusByte m c).getLsbD 0 = m := by
  cases m <;> cases c <;> decide

theorem statusByte_bit_one (m c : Bool) : (statusByte m c).getLsbD 1 = c := by
  cases m <;> cases c <;> decide

theorem statusByte_values (m c : Bool) :
    statusByte m c = 0x00#8 ∨ statusByte m c = 0x01#8 ∨ statusByte m c = 0x02#8 ∨ statusByte m c = 0x03#8 := by
  cases m <;> cases c <;> decide

theorem statusByte_high_bits (m c : Bool) (k : Nat) (hk : 2 ≤ k) : (statusByte m c).getLsbD k = false := by
  have hlt : (statusByte m c).toNat < 2 ^ 2 := by cases m <;> cases c <;> decide
  exact Nat.testBit_lt_two_pow (hlt.trans_le (Nat.pow_le_pow_right (by decide) hk))

/-- Reading `STATUS` returns the two flags and leaves the engine (R15, R60). -/
theorem exec_hrd_status (s : State) :
    exec (.hrd 0x09#6) s = .next (s.respond (statusByte s.engine.matched s.engine.errCmd)) := by
  rw [← regRead_status s.engine 0x09#6 rfl]
  rfl

/-- Settles O16, from the byte `STATUS` reads as and R37's ignored write. -/
theorem statusShowsTheTwoFlags : Obligations.StatusShowsTheTwoFlags := by
  refine ⟨fun s => ?_, fun v s => ?_, rfl⟩
  · exact ⟨_, _, exec_hrd_status s, rfl, rfl, statusByte_bit_zero _ _, statusByte_bit_one _ _,
      statusByte_high_bits _ _, statusByte_toNat _ _, statusByte_values _ _⟩
  · exact ⟨_, rfl, regWrite_ignored s.engine 0x09#6 v (.inl rfl)⟩

/-! ## The two flags, `ERR_CMD` (R17) and `MATCH` (R16) -/

/-- A search matches exactly when one of the sixteen shifts fits (R75). -/
theorem searchShift_matched_iff (e : Engine) :
    (searchShift e).matched = true ↔ ∃ n < 16, computeSeed e.addr e.key n = e.seed := by
  rcases searchShift_cases e with ⟨n, hfound, hs⟩ | ⟨hnone, hs⟩
  · have hfits := ((findKeyShift_eq_some _ _ _ _).1 hfound).1
    simpa [hs] using ⟨n.toNat, n.isLt, hfits⟩
  · simpa [hs] using (findKeyShift_eq_none _ _ _).1 hnone

/-- After a match `SHIFT` fits (R75). -/
theorem searchShift_shift_fits (e : Engine) (h : (searchShift e).matched = true) :
    computeSeed e.addr e.key (searchShift e).shift.toNat = e.seed := by
  rcases searchShift_cases e with ⟨n, hfound, hs⟩ | ⟨_, hs⟩
  · simpa [hs] using ((findKeyShift_eq_some _ _ _ _).1 hfound).1
  · simp [hs] at h

/-- Settles O25, from what one event makes of `ERR_CMD` (`effect_errCmd`) and of an engine in which it was changed. -/
theorem errCmdIsStickyAndTransparent : Obligations.ErrCmdIsStickyAndTransparent := by
  refine ⟨fun v s hv => ?_, fun ev s hev hset => ?_, fun s => ⟨_, rfl, rfl⟩, fun ev s c => ?_, fun s => ?_, rfl⟩
  · refine ⟨_, runEvent_eq_after _ s, ?_⟩
    simp [HostEvent.after, HostEvent.effect, decode_illegal_write v hv, decodedEffect]
  · refine ⟨_, runEvent_eq_after ev s, (effect_errCmd ev s.engine).trans ?_⟩
    simp [HostEvent.nextErrCmd, hev, hset]
  · refine ⟨_, _, runEvent_eq_after ev s, runEvent_eq_after ev _, ?_, response_withFlags ev s.engine s.engine.matched c⟩
    simp only [HostEvent.after, effect_of_errCmd_changed]
  · exact ⟨_, _, exec_hrd_status s, rfl, statusByte_bit_one _ _⟩

/-- Settles O26, from what one event makes of `MATCH` (`effect_matched`) and of an engine in which it was changed, and from what
a search that finds a shift, or none, says. -/
theorem matchReportsTheLatestSearch : Obligations.MatchReportsTheLatestSearch := by
  refine ⟨fun ev s hev hfs => ?_, fun s => ?_, fun s => ⟨_, rfl, rfl⟩, fun ev s m => ?_, fun s => ?_, rfl⟩
  · refine ⟨_, runEvent_eq_after ev s, (effect_matched ev s.engine).trans ?_⟩
    simp [HostEvent.nextMatch, hev, hfs]
  · exact ⟨_, rfl, searchShift_matched_iff s.engine, searchShift_shift_fits s.engine⟩
  · refine ⟨_, _, runEvent_eq_after ev s, runEvent_eq_after ev _, ?_⟩
    simp only [HostEvent.after, effect_of_matched_changed]
  · exact ⟨_, _, exec_hrd_status s, rfl, statusByte_bit_zero _ _⟩

end Sys2Proof.Machine
end

section
/-!
PROOFS. The register window seen by one instruction: what `HRD` and `HWR` answer in terms of `RegRead` and `RegWrite` (R34, R35),
the byte `SHIFT` reads as, and the offsets whose writes are ignored or that read 0x00 (R36, R37).
-/
namespace Sys2Proof.Machine

/-- `HRD` responds with the byte of `RegRead` (R60). -/
theorem exec_hrd_eq_respond (off : Offset) (s : State) :
    exec (.hrd off) s = .next (s.respond (regRead off s.engine)) := rfl

/-- `HWR` updates the engine by `RegWrite` (R61). -/
theorem exec_hwr_eq_update (off : Offset) (v : Byte) (s : State) :
    exec (.hwr off v) s = .next (s.update (regWrite off v)) := rfl

/-- `HWR SHIFT` updates `SHIFT` alone, by the low four bits of the byte (R36). -/
theorem exec_hwr_shift (v : Byte) (s : State) :
    exec (.hwr 0x08#6 v) s = .next (s.update fun e => e.setShift (shiftField v)) := by
  rw [exec_hwr_eq_update, funext fun e => regWrite_shift e 0x08#6 v rfl]

/-- `HRD SHIFT` responds with `SHIFT`, zero-extended (R34). -/
theorem exec_hrd_shift (s : State) : exec (.hrd 0x08#6) s = .next (s.respond (shiftByte s.engine.shift)) := by
  rw [exec_hrd_eq_respond, regRead_shift s.engine 0x08#6 rfl]

theorem shiftByte_toNat (n : Shift) : (shiftByte n).toNat = n.toNat :=
  BitVec.toNat_setWidth_of_le (by decide)

theorem shiftField_toNat (v : Byte) : (shiftField v).toNat = v.toNat % 16 := by
  simp [shiftField]

/-- A byte written to `SHIFT` reads back with its high four bits cleared (R36). -/
theorem shiftByte_shiftField (v : Byte) : shiftByte (shiftField v) = v &&& 0x0F#8 := by
  refine BitVec.eq_of_toNat_eq ?_
  rw [shiftByte_toNat, shiftField_toNat, BitVec.toNat_and]
  exact (Nat.and_two_pow_sub_one_eq_mod v.toNat 4).symm

/-- Indices of a block are taken modulo 16, so a rotation sees its count modulo 16 only (R6, R36). -/
theorem rotl_mod_sixteen (V : Block) (n : Nat) : rotl V (n % 16) = rotl V n := by
  refine block_ext _ _ fun i hi => ?_
  simp only [getElem_rotl, Nat.add_mod_mod]

/-- `STATUS` as a number: twice `ERR_CMD` plus `MATCH` (R15). -/
theorem statusByte_toNat_eq_add (m c : Bool) : (statusByte m c).toNat = 2 * c.toNat + m.toNat := by
  cases m <;> cases c <;> decide

/-- Settles O11: `HRD` twice responds twice with `RegRead` of the one engine, which each row of the register map then names. -/
theorem hostReadReturnsTheWindowByte : Obligations.HostReadReturnsTheWindowByte := by
  intro off s
  refine ⟨_, _, regRead off s.engine, exec_hrd_eq_respond off s, rfl, rfl, exec_hrd_eq_respond off _, rfl, rfl,
    regRead_addr s.engine off, ?shift, ?status, ?cmd, fun hlo hhi => regRead_zero s.engine off (.inl ⟨by omega, hhi⟩),
    regRead_seed s.engine off, regRead_key s.engine off, fun hlo => regRead_zero s.engine off (.inr hlo)⟩
  case shift =>
    rintro rfl
    rw [regRead_shift s.engine _ rfl, shiftByte_toNat]
  case status =>
    rintro rfl
    rw [regRead_status s.engine _ rfl, statusByte_toNat_eq_add]
  case cmd =>
    rintro rfl
    exact regRead_zero s.engine _ (.inl (by decide))

/-- Settles O14: a write to `SHIFT` keeps `shiftField`, which is the byte modulo 16 and reads back masked. -/
theorem shiftWriteKeepsTheLowFourBits : Obligations.ShiftWriteKeepsTheLowFourBits := by
  refine ⟨fun v s => ?_, fun V v => (rotl_mod_sixteen V v.toNat).symm, fun s => ?_⟩
  · exact ⟨_, _, exec_hwr_shift v s, shiftField_toNat v, rfl, exec_hrd_shift _, congrArg some (shiftByte_shiftField v)⟩
  · exact ⟨_, _, exec_hwr_shift 0x13#8 s, (by decide : shiftField 0x13#8 = 3#4),
      exec_hrd_shift _, congrArg some (shiftByte_shiftField 0x13#8)⟩

/-- Settles O15, from the rows of the register map whose writes are ignored and those that read 0x00. -/
theorem readOnlyWriteOnlyAndReservedOffsets : Obligations.ReadOnlyWriteOnlyAndReservedOffsets := by
  refine ⟨fun off v s hoff => ?_, fun off s hoff => ?_⟩
  · have hrow : off.toNat = 0x09 ∨ (0x0B ≤ off.toNat ∧ off.toNat ≤ 0x0F) ∨ 0x30 ≤ off.toNat :=
      hoff.imp_left (congrArg BitVec.toNat)
    exact ⟨_, exec_hwr_eq_update off v s, regWrite_ignored s.engine off v hrow⟩
  · have hrow : (0x0A ≤ off.toNat ∧ off.toNat ≤ 0x0F) ∨ 0x30 ≤ off.toNat := by
      rcases hoff with rfl | ⟨hlo, hhi⟩ | hlo
      · exact .inl (by decide)
      · exact .inl ⟨by omega, hhi⟩
      · exact .inr hlo
    exact ⟨_, exec_hrd_eq_respond off s, rfl, congrArg some (regRead_zero s.engine off hrow)⟩

end Sys2Proof.Machine
end

section
/-!
PROOFS. Words, their fields and their patterns (R46, R47, R53), and what a write to `CMD` does to the engine (R50, R51).
-/
namespace Sys2Proof

/-! ## The fields of a word as numbers and under a mask (R46) -/

/-- `WE` is the top bit. -/
theorem wordWE_eq_false_iff (w : BusWord) : wordWE w = false ↔ w.toNat < 0x4000 := by
  have hmsb : w.msb = false ↔ 2 * w.toNat < 2 ^ 15 := BitVec.msb_eq_false_iff_two_mul_lt
  rw [show wordWE w = w.msb from (BitVec.msb_eq_getLsbD_last w).symm, hmsb]
  omega

theorem wordOff_eq_ofNat (w : BusWord) : wordOff w = BitVec.ofNat 6 (w.toNat / 256) :=
  congrArg (BitVec.ofNat 6) (Nat.shiftRight_eq_div_pow w.toNat 8)

theorem wordData_eq_ofNat (w : BusWord) : wordData w = BitVec.ofNat 8 w.toNat := rfl

/-- A word is determined by its three fields. -/
theorem word_eq_iff_fields (w p : BusWord) :
    w = p ↔ wordWE w = wordWE p ∧ wordOff w = wordOff p ∧ wordData w = wordData p := by
  refine ⟨fun h => by simp [h], fun ⟨hwe, hoff, hdata⟩ => ?_⟩
  rw [← busWord_fields w, hwe, hoff, hdata, busWord_fields]

/-- A word matches a pattern under a mask when each of its fields does. -/
theorem masked_eq_iff_fields (w m p : BusWord) :
    w &&& m = p ↔ (wordWE w && wordWE m) = wordWE p ∧ wordOff w &&& wordOff m = wordOff p ∧
      wordData w &&& wordData m = wordData p := by
  simp only [word_eq_iff_fields, wordWE, wordOff, wordData, BitVec.getLsbD_and, BitVec.extractLsb'_and]

theorem masked_read_iff (w : BusWord) : w &&& 0x4000#15 = 0x0000#15 ↔ wordWE w = false :=
  (masked_eq_iff_fields w (busWord true 0x00#6 0x00#8) (busWord false 0x00#6 0x00#8)).trans (by simp)

theorem masked_write_iff (w : BusWord) : w &&& 0x4000#15 = 0x4000#15 ↔ wordWE w = true :=
  (masked_eq_iff_fields w (busWord true 0x00#6 0x00#8) (busWord true 0x00#6 0x00#8)).trans (by simp)

/-- All six bits of an offset are under the mask 0x3F. -/
theorem offset_and_full_mask (off : Offset) : off &&& 0x3F#6 = off := BitVec.and_allOnes

theorem masked_offset_iff (w : BusWord) : w &&& 0x3F00#15 = 0x0A00#15 ↔ wordOff w = 0x0A#6 :=
  (masked_eq_iff_fields w (busWord false 0x3F#6 0x00#8) (busWord false 0x0A#6 0x00#8)).trans
    (by simp [offset_and_full_mask])

theorem masked_command_write_iff (w : BusWord) :
    w &&& 0x7F00#15 = 0x4A00#15 ↔ wordWE w = true ∧ wordOff w = 0x0A#6 :=
  (masked_eq_iff_fields w (busWord true 0x3F#6 0x00#8) (busWord true 0x0A#6 0x00#8)).trans
    (by simp [offset_and_full_mask])

/-- All fifteen bits of a word are under the mask 0x7FFF. -/
theorem word_and_full_mask (w : BusWord) : w &&& 0x7FFF#15 = w := BitVec.and_allOnes

/-- A word is a given write to `CMD` when its three fields say so. -/
theorem word_eq_command_write_iff (w : BusWord) (v : Byte) :
    w = busWord true 0x0A#6 v ↔ wordWE w = true ∧ wordOff w = 0x0A#6 ∧ wordData w = v := by
  simp [word_eq_iff_fields]

/-! ## Decoding -/

/-- The cases of R47 on the word as a number. -/
theorem decode_eq_numeric_cases (w : BusWord) :
    decode w =
      if w.toNat < 0x4000 then .instr (.hrd (BitVec.ofNat 6 (w.toNat / 256)))
      else if BitVec.ofNat 6 (w.toNat / 256) ≠ 0x0A#6 then
        .instr (.hwr (BitVec.ofNat 6 (w.toNat / 256)) (BitVec.ofNat 8 w.toNat))
      else decodeCommand (BitVec.ofNat 8 w.toNat) := by
  simp only [decode, wordWE_eq_false_iff, wordOff_eq_ofNat, wordData_eq_ofNat]

/-- Settles O7: the fields of a word are its bits as a number, and each mask of R47 looks at whole fields. -/
theorem everyWordHasOneOfSixOutcomes : Obligations.EveryWordHasOneOfSixOutcomes := by
  refine ⟨fun w => decode_eq_numeric_cases w, fun w => ?_⟩
  rw [show 0x4A01#15 = busWord true 0x0A#6 0x01#8 from rfl, show 0x4A02#15 = busWord true 0x0A#6 0x02#8 from rfl,
    show 0x4A03#15 = busWord true 0x0A#6 0x03#8 from rfl]
  simp only [word_and_full_mask, masked_read_iff, masked_write_iff, masked_command_write_iff, ne_eq, masked_offset_iff,
    word_eq_command_write_iff]
  rcases Machine.decode_cases w with ⟨hwe, h⟩ | ⟨hwe, hoff, h⟩ |
    ⟨hwe, hoff, ⟨hv, h⟩ | ⟨hv, h⟩ | ⟨hv, h⟩ | ⟨hv1, hv2, hv3, h⟩⟩
  · simp [h, hwe]
  · simp [h, hwe, hoff]
  · simp [h, hwe, hoff, hv]
  · simp [h, hwe, hoff, hv]
  · simp [h, hwe, hoff, hv]
  · simp [h, hwe, hoff, hv1, hv2, hv3]

/-! ## The canonical words (R53) -/

/-- A composed word as a number, its fields side by side. -/
theorem busWord_toNat (we : Bool) (off : Offset) (v : Byte) :
    (busWord we off v).toNat = we.toNat <<< 14 ||| off.toNat <<< 8 ||| v.toNat := by
  have hshift : off.toNat <<< 8 < 2 ^ 15 := by rw [Nat.shiftLeft_eq]; omega
  have hwe : we.toNat <<< 14 < 2 ^ 15 := by cases we <;> decide
  simp only [busWord, BitVec.toNat_or, BitVec.toNat_shiftLeft, BitVec.toNat_setWidth_of_le (show 1 ≤ 15 by decide),
    BitVec.toNat_setWidth_of_le (show 6 ≤ 15 by decide), BitVec.toNat_setWidth_of_le (show 8 ≤ 15 by decide),
    BitVec.toNat_ofBool, Nat.mod_eq_of_lt hwe, Nat.mod_eq_of_lt hshift]

/-- Settles O8, from the word of three fields as a number. -/
theorem opcodeMapWords : Obligations.OpcodeMapWords := by
  refine ⟨fun off => ?_, fun off v _ => busWord_toNat true off v, rfl, rfl, rfl, fun i => ?_⟩
  · simpa [encode] using busWord_toNat false off 0x00#8
  · cases i <;> simp [Instr.wellFormed]

end Sys2Proof

namespace Sys2Proof.Machine

/-! ## What a write to `CMD` does (R50, R51) -/

/-- A write to `CMD` is the transaction its word decodes to. -/
theorem regWrite_cmd_eq_decodedEffect (v : Byte) (e : Engine) :
    regWrite 0x0A#6 v e = decodedEffect (decodeCommand v) e := by
  rw [regWrite_cmd e _ v rfl]
  unfold command decodeCommand
  split_ifs <;> rfl

theorem decode_command_write (v : Byte) : decode (busWord true 0x0A#6 v) = decodeCommand v := by
  simp [decode]

theorem isIllegal_of_illegal_write (v : Byte) (hv : v = 0x00#8 ∨ 0x04 ≤ v.toNat) :
    (HostEvent.transaction (busWord true 0x0A#6 v)).isIllegal = true := by
  simp [HostEvent.isIllegal, decode_illegal_write v hv]

/-- Below 0x04 only the byte 0x00 is illegal; from 0x04 on all 252 bytes are. -/
theorem illegal_bytes_count :
    ((List.range 256).filter fun n =>
      (HostEvent.transaction (busWord true 0x0A#6 (BitVec.ofNat 8 n))).isIllegal).length = 253 := by
  have hhigh : ∀ n ∈ (List.range 252).map (4 + ·),
      (HostEvent.transaction (busWord true 0x0A#6 (BitVec.ofNat 8 n))).isIllegal = true := by
    intro n hn
    obtain ⟨k, hk, rfl⟩ := List.mem_map.1 hn
    have hk : k < 252 := List.mem_range.1 hk
    exact isIllegal_of_illegal_write _ (.inr (by simp only [BitVec.toNat_ofNat]; omega))
  rw [show 256 = 4 + 252 from rfl, List.range_add, List.filter_append, List.filter_eq_self.2 hhigh, List.length_append,
    List.length_map, List.length_range]
  decide

/-- An event that is no illegal command leaves `ERR_CMD` set only where it was set (R87). -/
theorem errCmd_of_nextErrCmd {ev : HostEvent} {c : Bool} (hlegal : ev.isIllegal = false)
    (h : ev.nextErrCmd c = true) : c = true := by
  rw [HostEvent.nextErrCmd, hlegal, Bool.or_false] at h
  split at h
  · cases h
  · exact h

/-- Settles O24, from the decoding of an illegal write and from what one event makes of `ERR_CMD` (`effect_errCmd`). -/
theorem illegalCommandSetsOnlyErrCmd : Obligations.IllegalCommandSetsOnlyErrCmd := by
  refine ⟨fun v hv => ⟨decode_illegal_write v hv, fun s => ⟨_, runEvent_eq_after _ s, ?_⟩⟩, illegal_bytes_count,
    fun ev s hlegal => ⟨_, runEvent_eq_after ev s, fun hset => ?_⟩⟩
  · simp only [HostEvent.after, HostEvent.effect, decode_illegal_write v hv]
    rfl
  · exact errCmd_of_nextErrCmd hlegal ((effect_errCmd ev s.engine).symm.trans hset)

theorem searchShift_of_some {e : Engine} {n : Shift} (h : findKeyShift e.addr e.key e.seed = some n) :
    searchShift e = (e.setShift n).setMatch true := by
  simpa [h] using searchShift_cases e

theorem searchShift_of_none {e : Engine} (h : findKeyShift e.addr e.key e.seed = none) :
    searchShift e = e.setMatch false := by
  simpa [h] using searchShift_cases e

/-- Settles O19, row by row of the command code table; an illegal byte is the illegal transaction it decodes to. -/
theorem commandCodesSelectTheOperation : Obligations.CommandCodesSelectTheOperation := by
  refine fun e => ⟨regWrite_cmd_eq_decodedEffect 0x01#8 e, regWrite_cmd_eq_decodedEffect 0x02#8 e, fun n hn => ?_,
    fun hnone => ?_, fun v hv => ?_⟩
  · exact (regWrite_cmd_eq_decodedEffect 0x03#8 e).trans (searchShift_of_some hn)
  · exact (regWrite_cmd_eq_decodedEffect 0x03#8 e).trans (searchShift_of_none hnone)
  · rw [regWrite_cmd_eq_decodedEffect, ← decode_command_write, decode_illegal_write v hv]
    rfl

end Sys2Proof.Machine
end

section
/-!
PROOFS. What a host write to an offset other than `CMD` leaves in the engine, row by row of the register map (R61).
-/
namespace Sys2Proof.Machine

/-- The field a write stores in `SHIFT` is the byte modulo 16 (R36). -/
theorem shiftField_eq_ofNat (v : Byte) : shiftField v = BitVec.ofNat 4 (v.toNat % 16) := by
  rw [← shiftField_toNat, BitVec.ofNat_toNat, BitVec.setWidth_eq]

/-- Settles O12: `HWR` updates the engine by `RegWrite`, whose effect at each row of the register map is one named update. -/
theorem hostWriteStoresItsByte : Obligations.HostWriteStoresItsByte := by
  refine fun off v _ => ⟨busWord_toNat true off v, fun s => ⟨_, exec_hwr_eq_update off v s, ?_⟩⟩
  rw [State.update_engine]
  refine ⟨regWrite_addr s.engine off v, ?shift, fun hst => regWrite_ignored s.engine off v (.inl (congrArg BitVec.toNat hst)),
    fun hlo hhi => regWrite_ignored s.engine off v (.inr (.inl ⟨hlo, hhi⟩)), regWrite_seed s.engine off v,
    regWrite_key s.engine off v, fun hlo => regWrite_ignored s.engine off v (.inr (.inr hlo))⟩
  case shift =>
    rintro rfl
    rw [regWrite_shift s.engine _ v rfl, shiftField_eq_ofNat]
    rfl

end Sys2Proof.Machine
end

section
/-!
PROOFS. The derive and invert commands (41_derive.md): each byte of their results, and what each command does to the engine.
-/
namespace Sys2Proof.Machine

/-- `CKEY` updates the engine by `deriveKey` (R65). -/
theorem exec_ckey_eq_update (s : State) : exec .ckey s = .next (s.update deriveKey) := rfl

/-- `CSEED` updates the engine by `recoverSeed` (R66). -/
theorem exec_cseed_eq_update (s : State) : exec .cseed s = .next (s.update recoverSeed) := rfl

/-- One byte of the derived key (R65). -/
theorem getElem_computeKey (a : Address) (seed : Block) (n i : Nat) (h : i < 16) :
    (computeKey a seed n)[i] = seed[(i + n) % 16] ^^^ a[i % 8] := by
  rw [computeKey, getElem_xor16, getElem_rotl, getElem_dup]

/-- One byte of the recovered seed: the XOR comes before the rotation, so both operands are read at the rotated index (R66). -/
theorem getElem_computeSeed (a : Address) (key : Block) (n i : Nat) (h : i < 16) :
    (computeSeed a key n)[i] = key[(i + 16 - n) % 16] ^^^ a[(i + 16 - n) % 16 % 8] := by
  rw [computeSeed, getElem_rotr, getElem_xor16, getElem_dup]

/-- `CSEED` does not read `SEED`, the one register it writes, so repeating it changes nothing (R66). -/
theorem recoverSeed_recoverSeed (e : Engine) : recoverSeed (recoverSeed e) = recoverSeed e := rfl

/-- Settles O21: the engine update `deriveKey` writes `KEY` alone, with the bytes of `computeKey`. -/
theorem ckeyDerivesTheKey : Obligations.CkeyDerivesTheKey := by
  refine ⟨rfl, fun s => ⟨_, exec_ckey_eq_update s, fun i => ?_, rfl⟩, by decide⟩
  exact getElem_computeKey s.engine.addr s.engine.seed s.engine.shift.toNat i i.isLt

/-- Settles O22: the engine update `recoverSeed` writes `SEED` alone, with the bytes of `computeSeed`, and is idempotent. -/
theorem cseedRecoversTheSeed : Obligations.CseedRecoversTheSeed := by
  refine ⟨rfl, fun s => ⟨_, exec_cseed_eq_update s, fun i => ?_, rfl, _, exec_cseed_eq_update _, ?_⟩, by decide⟩
  · exact getElem_computeSeed s.engine.addr s.engine.key s.engine.shift.toNat i i.isLt
  · exact congrArg Engine.seed (recoverSeed_recoverSeed s.engine)

end Sys2Proof.Machine
end

section
/-!
PROOFS. The shift search command (42_search.md): what a fitting shift is byte by byte, which one the search leaves in `SHIFT`,
and that a search repeats.
-/
namespace Sys2Proof.Machine

/-- `FSHIFT` updates the engine by `searchShift` (R75). -/
theorem exec_fshift_eq_update (s : State) : exec .fshift s = .next (s.update searchShift) := rfl

/-- A shift fits when each byte of the seed it recovers is the byte of `SEED` (R66, R75). -/
theorem computeSeed_eq_iff_bytes (a : Address) (key seed : Block) (n : Nat) :
    computeSeed a key n = seed ↔
      ∀ i : Fin 16, key[(i.val + 16 - n) % 16] ^^^ a[(i.val + 16 - n) % 16 % 8] = seed[i] := by
  refine ⟨fun hfit i => ?_, fun hbytes => block_ext _ _ fun i hi => ?_⟩
  · rw [← hfit]
    exact (getElem_computeSeed a key n i i.isLt).symm
  · exact (getElem_computeSeed a key n i hi).trans (hbytes ⟨i, hi⟩)

/-- After a match no shift below `SHIFT` fits (R76). -/
theorem searchShift_shift_least (e : Engine) (h : (searchShift e).matched = true) :
    ∀ m < (searchShift e).shift.toNat, computeSeed e.addr e.key m ≠ e.seed := by
  rcases searchShift_cases e with ⟨n, hfound, hs⟩ | ⟨_, hs⟩
  · simpa [hs] using ((findKeyShift_eq_some _ _ _ _).1 hfound).2
  · simp [hs] at h

/-- A search reads none of the registers it writes, so repeating it changes nothing (R75). -/
theorem searchShift_searchShift (e : Engine) : searchShift (searchShift e) = searchShift e := by
  rcases searchShift_cases e with ⟨n, hfound, hs⟩ | ⟨hnone, hs⟩
  · rw [hs]
    exact searchShift_of_some hfound
  · rw [hs]
    exact searchShift_of_none hnone

/-- A search writes `SHIFT` and `MATCH` alone (R75). -/
theorem searchShift_frame (e : Engine) :
    searchShift e = { e with shift := (searchShift e).shift, matched := (searchShift e).matched } := by
  rcases searchShift_cases e with ⟨n, _, hs⟩ | ⟨_, hs⟩
  · rw [hs]
    rfl
  · rw [hs]
    rfl

/-- Settles O23: the engine update `searchShift` matches exactly when a shift fits, leaves the least fitting one, keeps `SHIFT`
where it finds none, and is idempotent. -/
theorem fshiftFindsTheLeastFittingShift : Obligations.FshiftFindsTheLeastFittingShift := by
  refine ⟨rfl, fun s => ?_, by decide⟩
  simp only [← computeSeed_eq_iff_bytes]
  refine ⟨_, exec_fshift_eq_update s, fun hfits => ?found, fun hmiss => ?missed, searchShift_frame s.engine, _,
    exec_fshift_eq_update _, searchShift_searchShift s.engine⟩
  case found =>
    have hmatch := (searchShift_matched_iff s.engine).2 hfits
    exact ⟨hmatch, searchShift_shift_fits s.engine hmatch, searchShift_shift_least s.engine hmatch⟩
  case missed =>
    have hnone := (findKeyShift_eq_none s.engine.addr s.engine.key s.engine.seed).2 hmiss
    rw [State.update_engine, searchShift_of_none hnone]
    exact ⟨rfl, rfl⟩

end Sys2Proof.Machine
end

section
/-!
PROOFS. Reset (70_reset_and_hazards.md): each byte of the registers after it, and what the window then shows.
-/
namespace Sys2Proof.Machine

/-- The reset event takes its step from any state (R95). -/
theorem runEvent_reset (s : State) : runEvent .reset s = .next s.takeReset := rfl

@[simp] theorem getElem_reset_addr (i : Nat) (h : i < 8) : Engine.reset.addr[i] = 0x00#8 := Vector.getElem_replicate h

@[simp] theorem getElem_reset_seed (i : Nat) (h : i < 16) : Engine.reset.seed[i] = 0x00#8 := Vector.getElem_replicate h

@[simp] theorem getElem_reset_key (i : Nat) (h : i < 16) : Engine.reset.key[i] = 0x00#8 := Vector.getElem_replicate h

/-- After reset the whole window reads 0x00, row by row of the register map (R33, R95). -/
theorem regRead_reset (off : Offset) : regRead off Engine.reset = 0x00#8 := by
  rcases offset_rows off with ⟨i, haddr⟩ | hshift | hstatus | hcmd | ⟨hlo, hhi⟩ | ⟨i, hseed⟩ | ⟨i, hkey⟩ | htop
  · exact (regRead_addr _ off i haddr).trans (getElem_reset_addr i i.isLt)
  · exact regRead_shift _ off hshift
  · exact regRead_status _ off hstatus
  · exact regRead_zero _ off (by omega)
  · exact regRead_zero _ off (by omega)
  · exact (regRead_seed _ off i hseed).trans (getElem_reset_seed i i.isLt)
  · exact (regRead_key _ off i hkey).trans (getElem_reset_key i i.isLt)
  · exact regRead_zero _ off (.inr htop)

/-- Settles O27: the reset event leaves the engine `Engine.reset`, whose operand bytes are zero, so every row of the window
reads 0x00. -/
theorem resetZeroesEveryRegister : Obligations.ResetZeroesEveryRegister := by
  refine fun s => ⟨s.takeReset, runEvent_reset s, ?_⟩
  rw [State.takeReset_engine]
  exact ⟨fun i => getElem_reset_addr i i.isLt, fun i => getElem_reset_seed i i.isLt, fun i => getElem_reset_key i i.isLt,
    rfl, rfl, rfl, regRead_reset, rfl⟩

end Sys2Proof.Machine
end

section
/-!
PROOFS. Decoding and encoding undo each other (R46, R47, R53), and the step that runs a decoded word (R7).
-/
namespace Sys2Proof

/-- Decoding the canonical word of a well-formed instruction gives it back (R47, R53). -/
theorem decode_encode (i : Instr) (hwf : i.wellFormed = true) : decode (encode i) = .instr i := by
  cases i with
  | hrd off => simp [encode, decode]
  | hwr off v =>
    have hoff : off ≠ 0x0A#6 := by simpa [Instr.wellFormed] using hwf
    simp [encode, decode, hoff]
  | ckey | cseed | fshift => rfl

/-- A word decodes to well-formed instructions only (R53). -/
theorem wellFormed_of_decode {w : BusWord} {i : Instr} (h : decode w = .instr i) : i.wellFormed = true := by
  rcases Machine.decode_cases w with ⟨_, hd⟩ | ⟨_, hoff, hd⟩ | ⟨_, _, ⟨_, hd⟩ | ⟨_, hd⟩ | ⟨_, hd⟩ | ⟨_, _, _, hd⟩⟩
  all_goals cases hd.symm.trans h
  · rfl
  · simpa [Instr.wellFormed] using hoff
  · rfl
  · rfl
  · rfl

/-- A number of the opcode table is an instruction when it fits in a word that decodes to it (log 4). -/
theorem decodeTableWord_eq_some_iff (n : Nat) (i : Instr) :
    decodeTableWord 16 n = some i ↔ n % 2 ^ 16 < 2 ^ 15 ∧ decode (BitVec.ofNat 15 (n % 2 ^ 16)) = .instr i := by
  unfold decodeTableWord decodeNumber
  generalize n % 2 ^ 16 = m
  by_cases hfits : m < 2 ^ 15
  · cases decode (BitVec.ofNat 15 m) with
    | instr j => simp only [hfits, if_true, Except.toOption, Option.some.injEq, Decoded.instr.injEq, true_and]
    | illegalCommand v => simp only [hfits, if_true, Except.toOption, reduceCtorEq, and_false]
  · simp only [hfits, if_false, Except.toOption, reduceCtorEq, false_and]

/-- The number of a word is that word in the table's sixteen bits. -/
theorem decodeTableWord_toNat {w : BusWord} {i : Instr} (h : decode w = .instr i) :
    decodeTableWord 16 w.toNat = some i := by
  have hmod : w.toNat % 2 ^ 16 = w.toNat := Nat.mod_eq_of_lt (w.isLt.trans (by decide))
  rw [decodeTableWord_eq_some_iff, hmod, BitVec.ofNat_toNat, BitVec.setWidth_eq]
  exact ⟨w.isLt, h⟩

/-- Settles O9, from `decode_encode`. -/
theorem decodeInvertsEncode : Obligations.DecodeInvertsEncode :=
  fun i hwf => ⟨decode_encode i hwf, decodeTableWord_toNat (decode_encode i hwf)⟩

/-- The canonical word of a read keeps the offset bits only (R48). -/
theorem busWord_read_eq_masked {w : BusWord} (hwe : wordWE w = false) :
    busWord false (wordOff w) 0x00#8 = w &&& 0x3F00#15 := by
  refine ((masked_eq_iff_fields w (busWord false 0x3F#6 0x00#8) _).2 ?_).symm
  simp [hwe, offset_and_full_mask]

/-- The canonical word of the instruction a write decodes to is that write. -/
theorem encode_of_decode_write {w : BusWord} {i : Instr} (hwe : wordWE w = true) (h : decode w = .instr i) :
    encode i = w := by
  rw [← busWord_fields w, hwe]
  rcases Machine.decode_cases w with ⟨hread, _⟩ | ⟨_, _, hd⟩ |
    ⟨_, hoff, ⟨hv, hd⟩ | ⟨hv, hd⟩ | ⟨hv, hd⟩ | ⟨_, _, _, hd⟩⟩
  · simp [hwe] at hread
  all_goals cases hd.symm.trans h
  · rfl
  all_goals rw [hoff, hv]; rfl

/-- The canonical word of the instruction a word decodes to: the data bits of a read are not kept (R48). -/
theorem encode_of_decode {w : BusWord} {i : Instr} (h : decode w = .instr i) :
    encode i = if w.toNat < 0x4000 then w &&& 0x3F00#15 else w := by
  simp only [← wordWE_eq_false_iff]
  cases hwe : wordWE w with
  | true => simpa using encode_of_decode_write hwe h
  | false =>
    obtain rfl : Instr.hrd (wordOff w) = i := by simpa [decode, hwe] using h
    simpa [encode] using busWord_read_eq_masked hwe

/-- An illegal command is a write to `CMD` of a byte that names no operation (R51). -/
theorem illegal_word_fields {w : BusWord} {v : Byte} (h : decode w = .illegalCommand v) :
    w = busWord true 0x0A#6 v ∧ v ≠ 0x01#8 ∧ v ≠ 0x02#8 ∧ v ≠ 0x03#8 := by
  rcases Machine.decode_cases w with ⟨_, hd⟩ | ⟨_, _, hd⟩ |
    ⟨hwe, hoff, ⟨_, hd⟩ | ⟨_, hd⟩ | ⟨_, hd⟩ | ⟨h1, h2, h3, hd⟩⟩
  all_goals cases hd.symm.trans h
  exact ⟨(word_eq_command_write_iff w _).2 ⟨hwe, hoff, rfl⟩, h1, h2, h3⟩

theorem command_word_toNat (v : Byte) : (busWord true 0x0A#6 v).toNat = 0x4A00 + v.toNat := by
  rw [busWord_toNat]
  exact (Nat.two_pow_add_eq_or_of_lt (i := 8) v.isLt 0x4A).symm

/-- Settles O10, from the canonical word of a decoded word and the fields of an illegal one. -/
theorem encodeInvertsDecode : Obligations.EncodeInvertsDecode := by
  refine ⟨fun w i h => ⟨wellFormed_of_decode h, encode_of_decode h⟩, fun w v h => ?_, fun off v => by simp [decode]⟩
  obtain ⟨rfl, hv⟩ := illegal_word_fields h
  exact ⟨command_word_toNat v, hv⟩

/-- Settles O6: the words of table V7 are literals. -/
theorem sampleWordsDecode : Obligations.SampleWordsDecode := by
  unfold Obligations.SampleWordsDecode
  decide

end Sys2Proof

namespace Sys2Proof.Machine

/-- An event whose word decodes to an instruction is the run of it (R47). -/
theorem runEvent_of_decode {w : BusWord} {i : Instr} (h : decode w = .instr i) (s : State) :
    runEvent (.transaction w) s = exec i s := by
  simp only [runEvent, h, runDecoded]

/-- Settles O1. -/
theorem stepRunsTheDecodedInstruction : Obligations.StepRunsTheDecodedInstruction :=
  fun s _ _ _ hp h => ⟨wellFormed_of_decode h, (step_cons s _ _ hp).trans (runEvent_of_decode h _)⟩

/-- Settles O2, from the run of the first pending event (`step_cons`). -/
theorem stepRunsTheOtherHostEvents : Obligations.StepRunsTheOtherHostEvents := by
  refine ⟨fun s w rest v hp h => ?_, fun s rest hp => step_cons s _ _ hp, fun s hp => ?_⟩
  · rw [step_cons s _ _ hp, runEvent, h]
    rfl
  · simp only [step, runNext, State.nextEvent?, hp]

/-- Taking off the events placed in front gives the state back. -/
theorem withPending_issueFirst (s : State) (evs : List HostEvent) :
    (s.issueFirst evs).withPending s.port.pending = s := rfl

/-- Settles O3: the placed word is the first pending event, and behind it the state is as it was. -/
theorem placedWordRunsNext : Obligations.PlacedWordRunsNext := by
  intro s n i h
  have hdecode := ((decodeTableWord_eq_some_iff n i).1 h).2
  rw [State.withFetchWord, State.withNextWord, step_cons _ _ s.port.pending rfl, withPending_issueFirst]
  exact runEvent_of_decode hdecode s

end Sys2Proof.Machine
end

section
/-!
PROOFS. Laws of the derivation (41_derive.md section 4): the primitives undo each other, so that `CKEY` and `CSEED` do.
-/
namespace Sys2Proof.Machine

/-! ## Rotations and the address mask (R6) -/

/-- Rotating twice is rotating once by the sum of the counts. -/
theorem rotl_rotl (v : Block) (m n : Nat) : rotl (rotl v m) n = rotl v (m + n) := by
  refine block_ext _ _ fun i hi => ?_
  simp only [getElem_rotl, Nat.mod_add_mod, Nat.add_assoc, Nat.add_comm n m]

theorem rotl_zero (v : Block) : rotl v 0 = v :=
  block_ext _ _ fun i hi => by simp only [getElem_rotl, Nat.add_zero, Nat.mod_eq_of_lt hi]

/-- A right rotation undoes the left one of the same count and is undone by it. -/
theorem rotr_eq_iff {n : Nat} (hn : n ≤ 16) (v w : Block) : rotr v n = w ↔ v = rotl w n := by
  constructor
  · rintro rfl
    refine block_ext _ _ fun i hi => ?_
    have hback : ((i + n) % 16 + 16 - n) % 16 = i := by omega
    simp only [getElem_rotl, getElem_rotr, hback]
  · rintro rfl
    refine block_ext _ _ fun i hi => ?_
    have hback : ((i + 16 - n) % 16 + n) % 16 = i := by omega
    simp only [getElem_rotl, getElem_rotr, hback]

theorem xor16_cancel (v m : Block) : xor16 (xor16 v m) m = v :=
  block_ext _ _ fun i hi => by simp only [getElem_xor16, BitVec.xor_assoc, BitVec.xor_self, BitVec.xor_zero]

/-- A mask moves from one side of an equation to the other. -/
theorem xor16_eq_iff (v m w : Block) : xor16 v m = w ↔ v = xor16 w m :=
  ⟨fun h => by rw [← h, xor16_cancel], fun h => by rw [h, xor16_cancel]⟩

/-- The repeated address has period 8. -/
theorem rotl_dup_eight (a : Address) : rotl (dup a) 8 = dup a := by
  refine block_ext _ _ fun i hi => ?_
  have hindex : (i + 8) % 16 % 8 = i % 8 := by omega
  simp only [getElem_rotl, getElem_dup, hindex]

/-! ## `compute_key` and `compute_seed` undo each other -/

/-- The seed test and the key test agree (R77). -/
theorem computeSeed_eq_iff {n : Nat} (hn : n ≤ 16) (a : Address) (key seed : Block) :
    computeSeed a key n = seed ↔ computeKey a seed n = key := by
  rw [computeSeed, computeKey, rotr_eq_iff hn, xor16_eq_iff, eq_comm]

theorem computeSeed_computeKey {n : Nat} (hn : n ≤ 16) (a : Address) (seed : Block) :
    computeSeed a (computeKey a seed n) n = seed := (computeSeed_eq_iff hn _ _ _).2 rfl

theorem computeKey_computeSeed {n : Nat} (hn : n ≤ 16) (a : Address) (key : Block) :
    computeKey a (computeSeed a key n) n = key := (computeSeed_eq_iff hn _ _ _).1 rfl

/-! ## The two commands as engine updates: `CKEY` writes `KEY` alone and `CSEED` writes `SEED` alone (R65, R66) -/

@[simp] theorem deriveKey_addr (e : Engine) : (deriveKey e).addr = e.addr := by
  rw [deriveKey, Engine.setKey_addr]

@[simp] theorem deriveKey_seed (e : Engine) : (deriveKey e).seed = e.seed := by
  rw [deriveKey, Engine.setKey_seed]

@[simp] theorem deriveKey_key (e : Engine) : (deriveKey e).key = computeKey e.addr e.seed e.shift.toNat := by
  rw [deriveKey, Engine.setKey_key]

@[simp] theorem deriveKey_shift (e : Engine) : (deriveKey e).shift = e.shift := by
  rw [deriveKey, Engine.setKey_shift]

@[simp] theorem recoverSeed_addr (e : Engine) : (recoverSeed e).addr = e.addr := by
  rw [recoverSeed, Engine.setSeed_addr]

@[simp] theorem recoverSeed_seed (e : Engine) : (recoverSeed e).seed = computeSeed e.addr e.key e.shift.toNat := by
  rw [recoverSeed, Engine.setSeed_seed]

@[simp] theorem recoverSeed_key (e : Engine) : (recoverSeed e).key = e.key := by
  rw [recoverSeed, Engine.setSeed_key]

@[simp] theorem recoverSeed_shift (e : Engine) : (recoverSeed e).shift = e.shift := by
  rw [recoverSeed, Engine.setSeed_shift]

/-- A shift is a count below 16. -/
theorem shift_le (s : Shift) : s.toNat ≤ 16 := s.isLt.le

/-- Settles O36. -/
theorem seedTestAndKeyTestAgree : Obligations.SeedTestAndKeyTestAgree :=
  fun a key seed s => computeSeed_eq_iff (shift_le s) a key seed

/-- Settles O29: `CSEED` computes the seed from the key that `CKEY` computed at the same address and shift. -/
theorem cseedAfterCkeyRestoresTheSeed : Obligations.CseedAfterCkeyRestoresTheSeed := by
  refine ⟨fun a seed s => computeSeed_computeKey (shift_le s) a seed,
    fun s => ⟨_, _, exec_ckey_eq_update s, exec_cseed_eq_update _, ?_⟩⟩
  simp only [State.update_engine, recoverSeed_seed, deriveKey_addr, deriveKey_key, deriveKey_shift]
  exact computeSeed_computeKey (shift_le s.engine.shift) _ _

/-- Settles O30, likewise with the roles of `KEY` and `SEED` exchanged. -/
theorem ckeyAfterCseedRestoresTheKey : Obligations.CkeyAfterCseedRestoresTheKey := by
  refine fun s => ⟨_, _, exec_cseed_eq_update s, exec_ckey_eq_update _, ?_⟩
  simp only [State.update_engine, deriveKey_key, recoverSeed_addr, recoverSeed_seed, recoverSeed_shift]
  exact computeKey_computeSeed (shift_le s.engine.shift) _ _

/-- What `CKEY` leaves in `KEY` when `SEED` is set first. -/
theorem ckey_with_seed_iff (s : State) (seed k : Block) :
    (∃ t, exec .ckey { s with engine := { s.engine with seed := seed } } = .next t ∧ t.engine.key = k) ↔
      computeKey s.engine.addr seed s.engine.shift.toNat = k := by
  simp only [exec_ckey_eq_update, Host.Outcome.next.injEq, exists_eq_left']
  rfl

/-- Settles O31: the one seed of a key is its `compute_seed`. -/
theorem ckeyIsABijectionFromSeedsToKeys : Obligations.CkeyIsABijectionFromSeedsToKeys := by
  intro s k
  simp only [ckey_with_seed_iff, ← computeSeed_eq_iff (shift_le s.engine.shift)]
  exact existsUnique_eq'

/-- Settles O33: the address mask repeats after 8 bytes, so adding 8 to the shift moves the seed bytes only. -/
theorem addressHalfSymmetry : Obligations.AddressHalfSymmetry := by
  refine ⟨rotl_dup_eight, fun a seed s i => ?_⟩
  have hseed : (i.val + (s.toNat + 8) % 16) % 16 = ((i.val + 8) % 16 + s.toNat) % 16 := by omega
  have haddr : (i.val + 8) % 16 % 8 = i.val % 8 := by omega
  simp only [Fin.getElem_fin, getElem_computeKey, hseed, haddr]

/-- Settles O34: bit `k` of a result byte is the XOR of bit `k` of the two bytes the rule names. -/
theorem derivationLanesAreIndependent : Obligations.DerivationLanesAreIndependent := by
  refine fun s s' i k hshift => ⟨_, _, _, _, exec_ckey_eq_update s, exec_ckey_eq_update s', exec_cseed_eq_update s,
    exec_cseed_eq_update s', fun hseed haddr => ?ckey, fun hkey haddr => ?cseed⟩
  case ckey =>
    simp only [State.update_engine, deriveKey_key, Fin.getElem_fin, getElem_computeKey,
      BitVec.getLsbD_xor, ← hshift, hseed, haddr]
  case cseed =>
    have hmod (j : Nat) : j % 16 % 8 = j % 8 := Nat.mod_mod_of_dvd j (by decide)
    simp only [State.update_engine, recoverSeed_seed, Fin.getElem_fin, getElem_computeSeed,
      BitVec.getLsbD_xor, ← hshift, hkey, hmod, haddr]

end Sys2Proof.Machine
end

section
/-!
PROOFS. The period of a seed (R78): it is the minimal period of the seed under rotation by one, so two rotations of a seed agree
exactly when their counts agree modulo the period, and the fitting shifts of a search are a residue class.
-/
namespace Sys2Proof.Machine

open Function

/-- Rotation by one byte, the map whose iterates are the rotations. -/
def rotlOne (v : Block) : Block := rotl v 1

theorem iterate_rotlOne (v : Block) (n : Nat) : rotlOne^[n] v = rotl v n := by
  induction n with
  | zero => exact (rotl_zero v).symm
  | succ n ih => rw [iterate_succ_apply', ih, rotlOne, rotl_rotl]

theorem isPeriodicPt_rotlOne_iff (v : Block) (n : Nat) : IsPeriodicPt rotlOne n v ↔ rotl v n = v := by
  rw [IsPeriodicPt, IsFixedPt, iterate_rotlOne]

theorem rotl_sixteen (v : Block) : rotl v 16 = v := (rotl_mod_sixteen v 16).symm.trans (rotl_zero v)

/-- A rotation fixes a block exactly when the minimal period divides its count. -/
theorem rotl_eq_self_iff (v : Block) (n : Nat) : rotl v n = v ↔ minimalPeriod rotlOne v ∣ n := by
  rw [← isPeriodicPt_rotlOne_iff, isPeriodicPt_iff_minimalPeriod_dvd]

/-- The candidates of R78 are the divisors of 16, so the least that fits is the minimal period. -/
theorem period_eq_minimalPeriod (v : Block) : period v = minimalPeriod rotlOne v := by
  have hdvd : minimalPeriod rotlOne v ∈ Nat.divisors 16 :=
    Nat.mem_divisors.2 ⟨(rotl_eq_self_iff v 16).1 (rotl_sixteen v), by decide⟩
  rw [show Nat.divisors 16 = {1, 2, 4, 8, 16} by decide] at hdvd
  simp only [Finset.mem_insert, Finset.mem_singleton] at hdvd
  simp only [period_eq, rotl_eq_self_iff]
  rcases hdvd with h | h | h | h | h
  all_goals simp only [h]; decide

theorem rotl_eq_self_iff_period_dvd (v : Block) (n : Nat) : rotl v n = v ↔ period v ∣ n := by
  rw [period_eq_minimalPeriod, rotl_eq_self_iff]

theorem period_mem_candidates (v : Block) : period v ∈ [1, 2, 4, 8, 16] := by
  rw [period_eq]
  split_ifs <;> decide

theorem period_pos (v : Block) : 0 < period v :=
  (by decide : ∀ p ∈ [1, 2, 4, 8, 16], 0 < p) _ (period_mem_candidates v)

theorem period_le_sixteen (v : Block) : period v ≤ 16 :=
  (by decide : ∀ p ∈ [1, 2, 4, 8, 16], p ≤ 16) _ (period_mem_candidates v)

/-- A rotation count acts modulo the period. -/
theorem rotl_mod_period (v : Block) (n : Nat) : rotl v (n % period v) = rotl v n := by
  rw [period_eq_minimalPeriod, ← iterate_rotlOne, iterate_mod_minimalPeriod_eq, iterate_rotlOne]

/-- Two rotations of a block agree exactly when their counts agree modulo its period. -/
theorem rotl_eq_rotl_iff (v : Block) (m n : Nat) : rotl v m = rotl v n ↔ m % period v = n % period v := by
  have hlt (k : Nat) : k % period v < minimalPeriod rotlOne v := by
    rw [← period_eq_minimalPeriod]
    exact Nat.mod_lt _ (period_pos v)
  rw [← rotl_mod_period v m, ← rotl_mod_period v n, ← iterate_rotlOne, ← iterate_rotlOne]
  exact iterate_eq_iterate_iff_of_lt_minimalPeriod (hlt m) (hlt n)

/-- Two keys of one seed agree exactly when their shifts agree modulo the seed's period. -/
theorem computeKey_eq_computeKey_iff (a : Address) (seed : Block) (m n : Nat) :
    computeKey a seed m = computeKey a seed n ↔ m % period seed = n % period seed := by
  rw [← rotl_eq_rotl_iff, computeKey, computeKey, xor16_eq_iff, xor16_cancel]

/-- Settles O32: without the address mask a key is a rotation of the seed. -/
theorem keysAtDifferentShifts : Obligations.KeysAtDifferentShifts := by
  intro a seed s t
  simp only [computeKey, xor16_cancel, rotl_rotl, rotl_mod_sixteen, true_and]
  exact computeKey_eq_computeKey_iff a seed s.toNat t.toNat

/-! ## The fitting shifts (R78) -/

/-- Where one shift fits, exactly those congruent to it modulo the period of the seed do. -/
theorem computeSeed_eq_iff_mod_period {a : Address} {key seed : Block} {m n : Nat} (hm : m ≤ 16) (hn : n ≤ 16)
    (hfit : computeSeed a key m = seed) :
    computeSeed a key n = seed ↔ n % period seed = m % period seed := by
  obtain rfl := (computeSeed_eq_iff hm a key seed).1 hfit
  rw [computeSeed_eq_iff hn, computeKey_eq_computeKey_iff]

/-- A residue class of a divisor `p` of 16 has `16 / p` members below 16. -/
theorem residue_class_count {p r : Nat} (hp : p ∈ [1, 2, 4, 8, 16]) (hr : r < p) :
    ((List.range 16).filter fun n => decide (n % p = r)).length = 16 / p :=
  (by decide : ∀ p ∈ [1, 2, 4, 8, 16], ∀ r < p,
    ((List.range 16).filter fun n => decide (n % p = r)).length = 16 / p) p hp r hr

theorem fitting_shifts_count {a : Address} {key seed : Block} {m : Nat} (hm : m ≤ 16)
    (hfit : computeSeed a key m = seed) :
    ((List.range 16).filter fun n => eq16 (computeSeed a key n) seed).length = 16 / period seed := by
  rw [← residue_class_count (period_mem_candidates seed) (Nat.mod_lt m (period_pos seed))]
  refine congrArg List.length (List.filter_congr fun n hn => ?_)
  rw [eq16_eq_decide]
  exact decide_eq_decide.2 (computeSeed_eq_iff_mod_period hm (List.mem_range.1 hn).le hfit)

/-- Where a shift fits, the search finds its residue modulo the period of the seed (R76, R78). -/
theorem findKeyShift_of_fits {a : Address} {key seed : Block} {m : Nat} (hm : m ≤ 16)
    (hfit : computeSeed a key m = seed) :
    findKeyShift a key seed = some (BitVec.ofNat 4 (m % period seed)) := by
  have hlt : m % period seed < period seed := Nat.mod_lt m (period_pos seed)
  have hle := period_le_sixteen seed
  have hnat : (BitVec.ofNat 4 (m % period seed)).toNat = m % period seed := by
    rw [BitVec.toNat_ofNat]
    exact Nat.mod_eq_of_lt (hlt.trans_le hle)
  rw [findKeyShift_eq_some, hnat, computeSeed_eq_iff_mod_period hm (hlt.trans_le hle).le hfit]
  refine ⟨Nat.mod_mod _ _, fun n hn hfits => ?_⟩
  rw [computeSeed_eq_iff_mod_period hm (by omega) hfit, Nat.mod_eq_of_lt (hn.trans hlt)] at hfits
  exact hn.ne hfits

/-- Settles O37: the period is the least candidate that divides, and the fitting shifts are the residue class of one of them. -/
theorem fittingShiftsAreAResidueClass : Obligations.FittingShiftsAreAResidueClass := by
  refine ⟨fun seed => ⟨period_mem_candidates seed, (rotl_eq_self_iff_period_dvd _ _).2 dvd_rfl, fun q hq hfix => ?_⟩,
    fun a key seed s₀ hfit => ⟨fun s => computeSeed_eq_iff_mod_period (shift_le s₀) (shift_le s) hfit,
      fitting_shifts_count (shift_le s₀) hfit, findKeyShift_of_fits (shift_le s₀) hfit⟩⟩
  have hq : 0 < q := (by decide : ∀ p ∈ [1, 2, 4, 8, 16], 0 < p) q hq
  exact Nat.le_of_dvd hq ((rotl_eq_self_iff_period_dvd seed q).1 hfix)

/-! ## A search over consistent registers (42_search.md sections 3 and 4) -/

/-- The registers are consistent exactly when `SHIFT` fits (R77, R80). -/
theorem keyConsistent_iff_fits (e : Engine) :
    e.KeyConsistent ↔ computeSeed e.addr e.key e.shift.toNat = e.seed := by
  rw [computeSeed_eq_iff (shift_le e.shift), Engine.KeyConsistent, eq_comm]

/-- In consistent registers each block is the document's function of the other, written out (R80). -/
theorem key_and_seed_of_keyConsistent {e : Engine} (h : e.KeyConsistent) :
    e.key = xor16 (rotl e.seed e.shift.toNat) (dup e.addr) ∧ e.seed = rotr (xor16 e.key (dup e.addr)) e.shift.toNat :=
  ⟨h, ((keyConsistent_iff_fits e).1 h).symm⟩

theorem deriveKey_keyConsistent (e : Engine) : (deriveKey e).KeyConsistent := by
  rw [Engine.KeyConsistent, deriveKey_key, deriveKey_addr, deriveKey_seed, deriveKey_shift]

theorem recoverSeed_keyConsistent (e : Engine) : (recoverSeed e).KeyConsistent := by
  rw [keyConsistent_iff_fits, recoverSeed_addr, recoverSeed_key, recoverSeed_shift, recoverSeed_seed]

/-- Over consistent registers a derivation writes what `KEY` holds (R80). -/
theorem deriveKey_of_keyConsistent {e : Engine} (h : e.KeyConsistent) : deriveKey e = e := by
  rw [deriveKey, ← show e.key = _ from h]
  rfl

/-- Over consistent registers a recovery writes what `SEED` holds (R80). -/
theorem recoverSeed_of_keyConsistent {e : Engine} (h : e.KeyConsistent) : recoverSeed e = e := by
  rw [recoverSeed, (keyConsistent_iff_fits e).1 h]
  rfl

/-- Over consistent registers a search matches and reduces `SHIFT` modulo the period of the seed (R79). -/
theorem searchShift_of_keyConsistent {e : Engine} (h : e.KeyConsistent) :
    searchShift e = (e.setShift (BitVec.ofNat 4 (e.shift.toNat % period e.seed))).setMatch true :=
  searchShift_of_some (findKeyShift_of_fits (shift_le e.shift) ((keyConsistent_iff_fits e).1 h))

theorem searchShift_matched_of_keyConsistent {e : Engine} (h : e.KeyConsistent) : (searchShift e).matched = true := by
  rw [searchShift_of_keyConsistent h]
  rfl

theorem searchShift_shift_of_keyConsistent {e : Engine} (h : e.KeyConsistent) :
    (searchShift e).shift.toNat = e.shift.toNat % period e.seed := by
  rw [searchShift_of_keyConsistent h]
  exact Nat.mod_eq_of_lt ((Nat.mod_le _ _).trans_lt e.shift.isLt)

theorem searchShift_shift (e : Engine) :
    (searchShift e).shift = (findKeyShift e.addr e.key e.seed).getD e.shift := by
  rw [searchShift, Engine.setMatch_shift, Engine.setShift_shift, shiftAfter]

theorem searchShift_matched (e : Engine) :
    (searchShift e).matched = (findKeyShift e.addr e.key e.seed).isSome := by
  rw [searchShift, Engine.setMatch_matched, matchAfter]

@[simp] theorem searchShift_addr (e : Engine) : (searchShift e).addr = e.addr := by
  rw [searchShift_frame]

@[simp] theorem searchShift_key (e : Engine) : (searchShift e).key = e.key := by
  rw [searchShift_frame]

@[simp] theorem searchShift_seed (e : Engine) : (searchShift e).seed = e.seed := by
  rw [searchShift_frame]

@[simp] theorem searchShift_errCmd (e : Engine) : (searchShift e).errCmd = e.errCmd := by
  rw [searchShift_frame]

/-- A search that matches leaves the registers consistent (R80). -/
theorem searchShift_keyConsistent_of_matched {e : Engine} (h : (searchShift e).matched = true) :
    (searchShift e).KeyConsistent := by
  rw [keyConsistent_iff_fits, searchShift_addr, searchShift_key, searchShift_seed]
  exact searchShift_shift_fits e h

theorem reset_keyConsistent : Engine.reset.KeyConsistent := by decide

/-- The zero seed has period 1. -/
theorem period_zero_seed : period (Vector.replicate 16 0x00#8) = 1 := by decide

/-- With the zero seed the key is the repeated address, whatever the shift. -/
theorem computeKey_zero_seed (a : Address) (n : Nat) : computeKey a (Vector.replicate 16 0x00#8) n = dup a :=
  block_ext _ _ fun i hi => by simp only [getElem_computeKey, getElem_dup, Vector.getElem_replicate, BitVec.zero_xor]

/-- Settles O54: `CKEY` leaves the registers consistent, and over those it changes nothing. -/
theorem ckeyTwiceGivesTheSameKey : Obligations.CkeyTwiceGivesTheSameKey := by
  intro s
  have hrepeat := deriveKey_of_keyConsistent (deriveKey_keyConsistent s.engine)
  exact ⟨_, _, exec_ckey_eq_update s, exec_ckey_eq_update _, congrArg Engine.key hrepeat, hrepeat⟩

/-- Settles O38: `CKEY` leaves the registers consistent; the zero seed has period 1. -/
theorem fshiftAfterCkeyFindsTheShiftModuloThePeriod : Obligations.FshiftAfterCkeyFindsTheShiftModuloThePeriod := by
  refine ⟨fun s => ?law, fun s hseed hshift => ?counterexample⟩
  case law =>
    have hcons := deriveKey_keyConsistent s.engine
    have hshift := searchShift_shift_of_keyConsistent hcons
    rw [deriveKey_seed, deriveKey_shift] at hshift
    exact ⟨_, _, exec_ckey_eq_update s, exec_fshift_eq_update _, searchShift_matched_of_keyConsistent hcons, hshift,
      fun hlt => BitVec.eq_of_toNat_eq (hshift.trans (Nat.mod_eq_of_lt hlt))⟩
  case counterexample =>
    have hshift := searchShift_shift_of_keyConsistent (deriveKey_keyConsistent s.engine)
    rw [deriveKey_seed, hseed, period_zero_seed, Nat.mod_one] at hshift
    refine ⟨_, _, exec_ckey_eq_update s, ?_, exec_fshift_eq_update _, BitVec.eq_of_toNat_eq hshift⟩
    rw [State.update_engine, deriveKey_key, hseed, computeKey_zero_seed]

/-- Settles O39: `CSEED` leaves the registers consistent. -/
theorem fshiftAfterCseedFindsTheShiftModuloThePeriod : Obligations.FshiftAfterCseedFindsTheShiftModuloThePeriod := by
  intro s
  have hcons := recoverSeed_keyConsistent s.engine
  have hshift := searchShift_shift_of_keyConsistent hcons
  rw [recoverSeed_shift] at hshift
  exact ⟨_, _, exec_cseed_eq_update s, exec_fshift_eq_update _, searchShift_matched_of_keyConsistent hcons, hshift⟩

/-- Settles O40: a match leaves the registers consistent, and then neither command changes anything. -/
theorem fshiftMatchIsSound : Obligations.FshiftMatchIsSound := by
  refine fun s => ⟨_, exec_fshift_eq_update s, fun hmatch => ?_⟩
  have hcons := searchShift_keyConsistent_of_matched hmatch
  obtain ⟨hkey, hseed⟩ := key_and_seed_of_keyConsistent hcons
  exact ⟨hkey, hseed, _, _, exec_ckey_eq_update _, deriveKey_of_keyConsistent hcons, exec_cseed_eq_update _,
    recoverSeed_of_keyConsistent hcons⟩

/-- Settles O41: a search misses when no shift fits, by the key form of the test. -/
theorem fshiftMissIsComplete : Obligations.FshiftMissIsComplete := by
  refine fun s => ⟨_, exec_fshift_eq_update s, ?_⟩
  rw [← Bool.not_eq_true, State.update_engine, searchShift_matched_iff]
  push Not
  exact forall₂_congr fun n hn => (computeSeed_eq_iff hn.le _ _ _).not

/-- Settles O28: the reset registers are consistent at shift 0. -/
theorem searchAfterResetMatchesAtZero : Obligations.SearchAfterResetMatchesAtZero := by
  refine fun s => ⟨_, _, runEvent_reset s, reset_keyConsistent, exec_fshift_eq_update _,
    searchShift_matched_of_keyConsistent reset_keyConsistent, BitVec.eq_of_toNat_eq ?_⟩
  exact (searchShift_shift_of_keyConsistent reset_keyConsistent).trans (Nat.zero_mod _)

/-- Settles O35: each command's result is a function of the operands the spec names. -/
theorem commandResultsDependOnTheirOperandsOnly : Obligations.CommandResultsDependOnTheirOperandsOnly := by
  refine fun s s' haddr => ⟨_, _, _, _, _, _, exec_ckey_eq_update s, exec_ckey_eq_update s', exec_cseed_eq_update s,
    exec_cseed_eq_update s', exec_fshift_eq_update s, exec_fshift_eq_update s', fun hseed hshift => ?ckey,
    fun hkey hshift => ?cseed, fun hkey hseed => ?fshift⟩
  case ckey => simp only [State.update_engine, deriveKey_key, haddr, hseed, hshift]
  case cseed => simp only [State.update_engine, recoverSeed_seed, haddr, hkey, hshift]
  case fshift =>
    simp only [State.update_engine, searchShift_matched, searchShift_shift, haddr, hkey, hseed, true_and]
    intro hfound
    obtain ⟨n, hn⟩ := Option.isSome_iff_exists.1 hfound
    rw [hn, Option.getD_some, Option.getD_some]

end Sys2Proof.Machine
end

section
/-!
PROOFS. What a step keeps (R7): the two invariants of the engine that hold as long as the events to come meet a condition.
-/
namespace Sys2Proof.Machine

/-- A step that answers took the first pending event and left what `after` names. -/
theorem step_eq_after {s t : State} (h : step s = .next t) :
    ∃ ev rest, s.port.pending = ev :: rest ∧ t = ev.after (s.withPending rest) := by
  obtain ⟨ev, rest, hpending, hrun⟩ := step_cases s t h
  rw [runEvent_eq_after, Host.Outcome.next.injEq] at hrun
  exact ⟨ev, rest, hpending, hrun.symm⟩

/-- What every event that is not `bad` keeps in the engine, a step keeps while no pending event is `bad`. -/
theorem step_keeps {P : Engine → Prop} {bad : HostEvent → Bool}
    (hkeep : ∀ ev e, bad ev = false → P e → P (ev.effect e)) {s t : State}
    (hs : P s.engine ∧ ∀ ev ∈ s.port.pending, bad ev = false) (h : step s = .next t) :
    P t.engine ∧ ∀ ev ∈ t.port.pending, bad ev = false := by
  obtain ⟨ev, rest, hpending, rfl⟩ := step_eq_after h
  obtain ⟨hP, hgood⟩ := hs
  rw [hpending, List.forall_mem_cons] at hgood
  exact ⟨hkeep ev _ hgood.1 hP, hgood.2⟩

/-- Settles O42: an event that is no illegal command leaves `ERR_CMD` clear where it was clear (`effect_errCmd`). -/
theorem errFreeIsKeptByEveryStep : Obligations.ErrFreeIsKeptByEveryStep := by
  refine fun s t => step_keeps (P := fun e => e.errCmd = false) fun ev e hlegal hclear => ?_
  rw [effect_errCmd, HostEvent.nextErrCmd, hlegal, hclear]
  exact ite_self false

/-- Settles O43. -/
theorem errFreeAtReset : Obligations.ErrFreeAtReset := ⟨rfl, List.forall_mem_nil _⟩

/-- A write to an offset that holds no operand byte is ignored, `CMD` apart (R35, R37). -/
theorem regWrite_of_not_operand {off : Offset} (hop : operandOffset off = false) (hcmd : off ≠ 0x0A#6) (v : Byte)
    (e : Engine) : regWrite off v e = e := by
  have hcmd : off.toNat ≠ 0x0A := fun h => hcmd (BitVec.eq_of_toNat_eq h)
  simp only [operandOffset, Bool.or_eq_false_iff, Bool.and_eq_false_iff, decide_eq_false_iff_not] at hop
  exact regWrite_ignored e off v (by omega)

/-- A search keeps the registers consistent, whether it matches or not (R80). -/
theorem searchShift_keyConsistent {e : Engine} (h : e.KeyConsistent) : (searchShift e).KeyConsistent :=
  searchShift_keyConsistent_of_matched (searchShift_matched_of_keyConsistent h)

/-- Consistency does not speak of the flags. -/
theorem setErrCmd_keyConsistent {e : Engine} (h : e.KeyConsistent) : e.setErrCmd.KeyConsistent := h

/-- Every event but an operand write keeps the registers consistent. -/
theorem effect_keyConsistent (ev : HostEvent) (e : Engine) (hev : ev.writesOperand = false) (h : e.KeyConsistent) :
    (ev.effect e).KeyConsistent := by
  cases ev with
  | reset => exact reset_keyConsistent
  | transaction w =>
    simp only [HostEvent.effect, HostEvent.writesOperand] at hev ⊢
    rcases decode_cases w with ⟨_, hd⟩ | ⟨_, hoff, hd⟩ | ⟨_, _, ⟨_, hd⟩ | ⟨_, hd⟩ | ⟨_, hd⟩ | ⟨_, _, _, hd⟩⟩
    all_goals simp only [hd] at hev ⊢
    · exact h
    · rw [decodedEffect, regWrite_of_not_operand hev hoff]
      exact h
    · exact deriveKey_keyConsistent e
    · exact recoverSeed_keyConsistent e
    · exact searchShift_keyConsistent h
    · exact setErrCmd_keyConsistent h

/-- Settles O44: every event but an operand write keeps the registers consistent (`effect_keyConsistent`). -/
theorem consistencyIsKeptByEveryStep : Obligations.ConsistencyIsKeptByEveryStep :=
  fun _ _ => step_keeps effect_keyConsistent

/-- Settles O45. -/
theorem consistencyAtReset : Obligations.ConsistencyAtReset := ⟨reset_keyConsistent, List.forall_mem_nil _⟩

end Sys2Proof.Machine
end

section
/-!
PROOFS. One event and a run of events (R7, R41): what a run leaves in the engine and which bytes its reads return, as functions of
the engine alone.
-/
namespace Sys2Proof.Machine

/-- The engine after these events, one after the other. -/
def effectAll (evs : List HostEvent) (e : Engine) : Engine := evs.foldl (fun e ev => ev.effect e) e

/-- The bytes the reads among these events return, in order. -/
def responseAll : List HostEvent → Engine → List Byte
  | [], _ => []
  | ev :: evs, e => (ev.response e).toList ++ responseAll evs (ev.effect e)

@[simp] theorem effectAll_nil (e : Engine) : effectAll [] e = e := rfl

@[simp] theorem effectAll_cons (ev : HostEvent) (evs : List HostEvent) (e : Engine) :
    effectAll (ev :: evs) e = effectAll evs (ev.effect e) := rfl

@[simp] theorem effectAll_append (evs evs' : List HostEvent) (e : Engine) :
    effectAll (evs ++ evs') e = effectAll evs' (effectAll evs e) := List.foldl_append

@[simp] theorem responseAll_nil (e : Engine) : responseAll [] e = [] := rfl

@[simp] theorem responseAll_cons (ev : HostEvent) (evs : List HostEvent) (e : Engine) :
    responseAll (ev :: evs) e = (ev.response e).toList ++ responseAll evs (ev.effect e) := rfl

@[simp] theorem responseAll_append (evs evs' : List HostEvent) (e : Engine) :
    responseAll (evs ++ evs') e = responseAll evs e ++ responseAll evs' (effectAll evs e) := by
  induction evs generalizing e with
  | nil => rfl
  | cons ev evs ih => simp only [List.cons_append, responseAll_cons, effectAll_cons, ih, List.append_assoc]

/-- The first pending events run to their end, from any state (R84, R85). -/
theorem runHost_pending (evs tail : List HostEvent) (s : State) (hpending : s.port.pending = evs ++ tail) :
    ∃ t, runHost evs.length s = some (t, responseAll evs s.engine) ∧ t.engine = effectAll evs s.engine ∧
      t.port.pending = tail := by
  induction evs generalizing s with
  | nil => exact ⟨s, rfl, rfl, hpending⟩
  | cons ev evs ih =>
    have hstep : step s = .next (ev.after (s.withPending (evs ++ tail))) :=
      (step_cons s ev _ hpending).trans (runEvent_eq_after ev _)
    obtain ⟨t, hrun, hengine, htail⟩ := ih (ev.after (s.withPending (evs ++ tail))) rfl
    refine ⟨t, ?_, hengine, htail⟩
    rw [List.length_cons, runHost_succ _ s _ hstep, hrun]
    rfl

/-- A program runs to its end, from any state, and what was pending stays pending behind it. -/
theorem runProgram_eq (evs : List HostEvent) (s : State) :
    ∃ t, runProgram evs s = some (t, responseAll evs s.engine) ∧ t.engine = effectAll evs s.engine ∧
      t.port.pending = s.port.pending :=
  runHost_pending evs s.port.pending (s.issueFirst evs) rfl

/-- An event returns a byte exactly when it is a read (R46, R60). -/
theorem response_isSome_iff (ev : HostEvent) (e : Engine) :
    (ev.response e).isSome = true ↔ ∃ off, ev.isInstr (.hrd off) = true := by
  cases ev with
  | reset => simp [HostEvent.response, HostEvent.isInstr]
  | transaction w =>
    simp only [HostEvent.response, HostEvent.isInstr, beq_iff_eq]
    rcases decode_cases w with ⟨_, hd⟩ | ⟨_, _, hd⟩ | ⟨_, _, ⟨_, hd⟩ | ⟨_, hd⟩ | ⟨_, hd⟩ | ⟨_, _, _, hd⟩⟩
    all_goals simp [hd, decodedResponse]

/-- Settles O4: an event completes in the state `after` names. -/
theorem everyHostEventCompletes : Obligations.EveryHostEventCompletes :=
  fun ev s => ⟨_, runEvent_eq_after ev s, rfl, response_isSome_iff ev s.engine⟩

/-- Settles O5: the pending events run to their end, with nothing behind them. -/
theorem everyRunOfIssuedEventsCompletes : Obligations.EveryRunOfIssuedEventsCompletes := by
  intro s
  obtain ⟨t, hrun, -, hpending⟩ := runHost_pending s.port.pending [] s (List.append_nil _).symm
  exact ⟨t, _, hrun, hpending⟩

/-- The transaction of a well-formed instruction has the effect of the instruction. -/
theorem instrEvent_effect {i : Instr} (hwf : i.wellFormed = true) (e : Engine) :
    (instrEvent i).effect e = decodedEffect (.instr i) e := by
  rw [← decode_encode i hwf]
  rfl

theorem instrEvent_response {i : Instr} (hwf : i.wellFormed = true) (e : Engine) :
    (instrEvent i).response e = decodedResponse (.instr i) e := by
  rw [← decode_encode i hwf]
  rfl

/-- An event that is a transaction of an instruction has the effect of the instruction. -/
theorem effect_of_isInstr {ev : HostEvent} {i : Instr} (h : ev.isInstr i = true) :
    ev.effect = decodedEffect (.instr i) := by
  cases ev with
  | reset => cases h
  | transaction w => exact congrArg decodedEffect (beq_iff_eq.1 h)

theorem effect_of_isIllegal {ev : HostEvent} (h : ev.isIllegal = true) : ev.effect = Engine.setErrCmd := by
  cases ev with
  | reset => cases h
  | transaction w =>
    simp only [HostEvent.isIllegal, HostEvent.effect] at h ⊢
    cases hd : decode w with
    | instr i => simp [hd] at h
    | illegalCommand v => rfl

/-- Settles O52: the block sees the reset alone. -/
theorem resetWinsOverACoincidingTransaction : Obligations.ResetWinsOverACoincidingTransaction :=
  fun _ s => runProgram_eq [.reset] s

/-- Settles O18: `HRD` responds and keeps the rest. -/
theorem hostReadChangesNothingButTheResponse : Obligations.HostReadChangesNothingButTheResponse :=
  exec_hrd_eq_respond

/-- A write to `CMD` updates the engine as the command code table says (R35, R50). -/
theorem exec_hwr_cmd (v : Byte) (s : State) :
    exec (.hwr 0x0A#6 v) s = .next (s.update (decodedEffect (decodeCommand v))) := by
  rw [exec_hwr_eq_update, funext (regWrite_cmd_eq_decodedEffect v)]

/-- Settles O20: the first three rows of the command code table are the commands. -/
theorem commandsAreWritesToCmd : Obligations.CommandsAreWritesToCmd := by
  refine ⟨fun s => (exec_hwr_cmd 0x01#8 s).symm, fun s => (exec_hwr_cmd 0x02#8 s).symm,
    fun s => (exec_hwr_cmd 0x03#8 s).symm, fun v s => ⟨_, exec_hwr_eq_update _ v s, rfl⟩, fun v s => ⟨_, runEvent_eq_after _ s, ?_⟩⟩
  rw [regWrite_cmd_eq_decodedEffect, ← decode_command_write]
  rfl

end Sys2Proof.Machine
end

section
/-!
PROOFS. What the window shows after a register update (R33 to R35), and so after a run of events that cannot write a byte (R41).
-/
namespace Sys2Proof.Machine

/-! ## One offset after one update -/

variable (off : Offset) (e : Engine)

theorem regRead_setAddrByte (i : Fin 8) (v : Byte) :
    regRead off (e.setAddrByte i v) = if off.toNat = i.val then v else regRead off e := by
  by_cases hrow : off.toNat ≤ 0x07
  · simp [regRead, hrow, Vector.getElem_set, eq_comm]
  · have hne : off.toNat ≠ i.val := by omega
    simp [regRead, hrow, hne]

theorem regRead_setSeedByte (i : Fin 16) (v : Byte) :
    regRead off (e.setSeedByte i v) = if off.toNat = 0x10 + i.val then v else regRead off e := by
  by_cases hrow : ∃ j : Fin 16, off.toNat = 0x10 + j.val
  · obtain ⟨j, h⟩ := hrow
    simp [regRead_seed _ off j h, h, Vector.getElem_set, eq_comm]
  · have hne : off.toNat ≠ 0x10 + i.val := fun h => hrow ⟨i, h⟩
    have hrow : ¬ (0x10 ≤ off.toNat ∧ off.toNat ≤ 0x1F) := fun h =>
      hrow ⟨⟨off.toNat - 0x10, by omega⟩, by simp; omega⟩
    simp [regRead, hrow, hne]

theorem regRead_setKeyByte (i : Fin 16) (v : Byte) :
    regRead off (e.setKeyByte i v) = if off.toNat = 0x20 + i.val then v else regRead off e := by
  by_cases hrow : ∃ j : Fin 16, off.toNat = 0x20 + j.val
  · obtain ⟨j, h⟩ := hrow
    simp [regRead_key _ off j h, h, Vector.getElem_set, eq_comm]
  · have hne : off.toNat ≠ 0x20 + i.val := fun h => hrow ⟨i, h⟩
    have hrow : ¬ (0x20 ≤ off.toNat ∧ off.toNat ≤ 0x2F) := fun h =>
      hrow ⟨⟨off.toNat - 0x20, by omega⟩, by simp; omega⟩
    simp [regRead, hrow, hne]

theorem regRead_setShift (n : Shift) :
    regRead off (e.setShift n) = if off.toNat = 0x08 then shiftByte n else regRead off e := by
  by_cases hrow : off.toNat = 0x08
  · simp [regRead_shift _ off hrow, hrow]
  · simp [regRead, hrow]

end Sys2Proof.Machine
end

section
/-!
PROOFS. What a read through the window sees after a write, a command or a reset, across events that cannot write its byte (R41).
-/
namespace Sys2Proof.Machine

/-- `KEY` shows at its own offsets only (R34). -/
theorem regRead_setKey_of_not_key {off : Offset} (h : ¬ (0x20 ≤ off.toNat ∧ off.toNat ≤ 0x2F)) (e : Engine) (k : Block) :
    regRead off (e.setKey k) = regRead off e := by
  simp [regRead, h]

/-- `SEED` shows at its own offsets only (R34). -/
theorem regRead_setSeed_of_not_seed {off : Offset} (h : ¬ (0x10 ≤ off.toNat ∧ off.toNat ≤ 0x1F)) (e : Engine) (k : Block) :
    regRead off (e.setSeed k) = regRead off e := by
  simp [regRead, h]

/-- An operand offset is in one of the four operand rows of the register map (R33). -/
theorem operandOffset_iff (off : Offset) :
    operandOffset off = true ↔ off.toNat ≤ 0x08 ∨ (0x10 ≤ off.toNat ∧ off.toNat ≤ 0x2F) := by
  simp [operandOffset]

/-- A write leaves every other offset as it was (R35). -/
theorem regRead_regWrite_other {off off' : Offset} (hne : off' ≠ off) (hcmd : off ≠ 0x0A#6) (v : Byte) (e : Engine) :
    regRead off' (regWrite off v e) = regRead off' e := by
  have hne : off'.toNat ≠ off.toNat := fun h => hne (BitVec.eq_of_toNat_eq h)
  rcases offset_rows off with ⟨i, h⟩ | h | h | h | h | ⟨i, h⟩ | ⟨i, h⟩ | h
  · rw [regWrite_addr _ _ _ i h, regRead_setAddrByte, if_neg (h ▸ hne)]
  · rw [regWrite_shift _ _ _ h, regRead_setShift, if_neg (h ▸ hne)]
  · rw [regWrite_ignored _ _ _ (.inl h)]
  · exact absurd (BitVec.eq_of_toNat_eq h) hcmd
  · rw [regWrite_ignored _ _ _ (.inr (.inl h))]
  · rw [regWrite_seed _ _ _ i h, regRead_setSeedByte, if_neg (h ▸ hne)]
  · rw [regWrite_key _ _ _ i h, regRead_setKeyByte, if_neg (h ▸ hne)]
  · rw [regWrite_ignored _ _ _ (.inr (.inr h))]

/-- An operand offset reads as the byte written to it, of which `SHIFT` keeps the low four bits (R35, R36). -/
theorem regRead_regWrite_operand {off : Offset} (hop : operandOffset off = true) (v : Byte) (e : Engine) :
    regRead off (regWrite off v e) = if off = 0x08#6 then v &&& 0x0F#8 else v := by
  rw [operandOffset_iff] at hop
  have hshift : off = 0x08#6 ↔ off.toNat = 0x08 := BitVec.toNat_inj.symm
  rcases offset_rows off with ⟨i, h⟩ | h | h | h | h | ⟨i, h⟩ | ⟨i, h⟩ | h
  · rw [regWrite_addr _ _ _ i h, regRead_setAddrByte, if_pos h, if_neg (mt hshift.1 (by omega))]
  · rw [regWrite_shift _ _ _ h, regRead_setShift, if_pos h, if_pos (hshift.2 h), shiftByte_shiftField]
  · omega
  · omega
  · omega
  · rw [regWrite_seed _ _ _ i h, regRead_setSeedByte, if_pos h, if_neg (mt hshift.1 (by omega))]
  · rw [regWrite_key _ _ _ i h, regRead_setKeyByte, if_pos h, if_neg (mt hshift.1 (by omega))]
  · omega

theorem regWrite_matched {off : Offset} (hcmd : off ≠ 0x0A#6) (v : Byte) (e : Engine) :
    (regWrite off v e).matched = e.matched :=
  (congrArg Engine.matched (regWrite_withFlags off v e e.matched e.errCmd hcmd)).trans rfl

theorem regWrite_errCmd {off : Offset} (hcmd : off ≠ 0x0A#6) (v : Byte) (e : Engine) :
    (regWrite off v e).errCmd = e.errCmd :=
  (congrArg Engine.errCmd (regWrite_withFlags off v e e.matched e.errCmd hcmd)).trans rfl

/-- Settles O13, from what the window shows after a write at the written offset and at every other one. -/
theorem hostWriteTouchesOneWindowByte : Obligations.HostWriteTouchesOneWindowByte := by
  refine fun off v s hcmd => ⟨_, exec_hwr_eq_update off v s, regWrite_matched hcmd v s.engine,
    regWrite_errCmd hcmd v s.engine, fun off' hne => regRead_regWrite_other hne hcmd v s.engine, ?_⟩
  rw [State.update_engine]
  cases hop : operandOffset off with
  | true => exact regRead_regWrite_operand hop v s.engine
  | false =>
    have hshift : off ≠ 0x08#6 := by
      rintro rfl
      cases hop
    rw [regWrite_of_not_operand hop hcmd, if_neg hshift]
    rfl

/-- `MATCH` shows in `STATUS` only (R15). -/
theorem regRead_setMatch {off : Offset} (hstatus : off ≠ 0x09#6) (e : Engine) (b : Bool) :
    regRead off (e.setMatch b) = regRead off e := regRead_withFlags off e b e.errCmd hstatus

/-- A search leaves the window outside `SHIFT` and `STATUS` (R75). -/
theorem regRead_searchShift {off : Offset} (hshift : off ≠ 0x08#6) (hstatus : off ≠ 0x09#6) (e : Engine) :
    regRead off (searchShift e) = regRead off e := by
  have hne : off.toNat ≠ 0x08 := fun h => hshift (BitVec.eq_of_toNat_eq h)
  rcases searchShift_cases e with ⟨n, _, hs⟩ | ⟨_, hs⟩
  · rw [hs, regRead_setMatch hstatus, regRead_setShift, if_neg hne]
  · rw [hs, regRead_setMatch hstatus]

/-- What `leavesByte` says: such an event leaves what the offset reads as, in any state. -/
theorem regRead_effect_of_leavesByte {off : Offset} {ev : HostEvent} (h : ev.leavesByte off = true) (e : Engine) :
    regRead off (ev.effect e) = regRead off e := by
  cases ev with
  | reset => cases h
  | transaction w =>
    simp only [HostEvent.effect, HostEvent.leavesByte] at h ⊢
    rcases decode_cases w with ⟨_, hd⟩ | ⟨_, hcmd, hd⟩ | ⟨_, _, ⟨_, hd⟩ | ⟨_, hd⟩ | ⟨_, hd⟩ | ⟨_, _, _, hd⟩⟩
    all_goals simp only [hd, decodedEffect] at h ⊢
    · rfl
    · by_cases hoff : off = wordOff w
      · subst hoff
        rw [regWrite_of_not_operand (by simpa using h) hcmd]
      · exact regRead_regWrite_other hoff hcmd _ e
    · exact regRead_setKey_of_not_key (fun ⟨hlo, hhi⟩ => by simp [hlo, hhi] at h) e _
    · exact regRead_setSeed_of_not_seed (fun ⟨hlo, hhi⟩ => by simp [hlo, hhi] at h) e _
    · have hne : off ≠ 0x08#6 ∧ off ≠ 0x09#6 := by simpa using h
      exact regRead_searchShift hne.1 hne.2 e
    · exact regRead_withFlags off e e.matched true (by simpa using h)

theorem regRead_effectAll_of_leavesByte {off : Offset} {evs : List HostEvent}
    (h : ∀ ev ∈ evs, ev.leavesByte off = true) (e : Engine) :
    regRead off (effectAll evs e) = regRead off e := by
  induction evs generalizing e with
  | nil => rfl
  | cons ev evs ih =>
    rw [List.forall_mem_cons] at h
    rw [effectAll_cons, ih h.2, regRead_effect_of_leavesByte h.1]

/-- A read behind events that leave its byte returns what the first event left there (R41). -/
theorem run_then_read {off : Offset} {s : State} {first : HostEvent} {evs tail : List HostEvent}
    (hevs : ∀ ev ∈ evs, ev.leavesByte off = true)
    (hpending : s.port.pending = first :: evs ++ .transaction (encode (.hrd off)) :: tail) :
    ∃ t bs, runHost (evs.length + 2) s = some (t, bs) ∧ t.port.pending = tail ∧
      bs.getLast? = some (regRead off (first.effect s.engine)) := by
  have hsplit : s.port.pending = (first :: evs ++ [instrEvent (.hrd off)]) ++ tail := by
    rw [hpending, List.append_assoc]
    rfl
  obtain ⟨t, hrun, -, htail⟩ := runHost_pending _ tail s hsplit
  rw [List.length_append, List.length_cons, List.length_singleton] at hrun
  refine ⟨t, _, hrun, htail, ?_⟩
  simp only [responseAll_append, responseAll_cons, responseAll_nil, effectAll_cons,
    instrEvent_response (i := .hrd off) rfl, decodedResponse, Option.toList_some, List.append_nil,
    regRead_effectAll_of_leavesByte hevs]
  exact List.getLast?_concat

/-- No operand offset is that of `CMD`. -/
theorem ne_cmd_of_operandOffset {off : Offset} (hop : operandOffset off = true) : off ≠ 0x0A#6 := by
  rintro rfl
  cases hop

/-- Settles O17: the read returns what the write left (`run_then_read`). -/
theorem readSeesTheLatestWrite : Obligations.ReadSeesTheLatestWrite := by
  intro s off v evs tail hop hevs hpending
  have hwf : (Instr.hwr off v).wellFormed = true := bne_iff_ne.2 (ne_cmd_of_operandOffset hop)
  obtain ⟨t, bs, hrun, htail, hlast⟩ := run_then_read hevs hpending
  refine ⟨t, bs, hrun, htail, hlast.trans (congrArg some ?_)⟩
  rw [show (HostEvent.transaction (encode (.hwr off v))).effect s.engine = _ from instrEvent_effect hwf s.engine]
  exact regRead_regWrite_operand hop v s.engine

/-! ## What a read sees after each command -/

theorem regRead_deriveKey {off : Offset} {i : Fin 16} (h : off.toNat = 0x20 + i.val) (e : Engine) :
    regRead off (deriveKey e) = (computeKey e.addr e.seed e.shift.toNat)[i] := by
  rw [regRead_key _ off i h, deriveKey_key]

theorem regRead_recoverSeed {off : Offset} {i : Fin 16} (h : off.toNat = 0x10 + i.val) (e : Engine) :
    regRead off (recoverSeed e) = (computeSeed e.addr e.key e.shift.toNat)[i] := by
  rw [regRead_seed _ off i h, recoverSeed_seed]

/-- The byte of `STATUS` after a search (R15, R75). -/
theorem regRead_status_searchShift (e : Engine) :
    regRead 0x09#6 (searchShift e) = statusByte (findKeyShift e.addr e.key e.seed).isSome e.errCmd := by
  rw [regRead_status _ _ rfl, searchShift_matched, searchShift_errCmd]

/-- The byte of `SHIFT` after a search (R34, R75). -/
theorem regRead_shift_searchShift (e : Engine) :
    regRead 0x08#6 (searchShift e) = shiftByte ((findKeyShift e.addr e.key e.seed).getD e.shift) := by
  rw [regRead_shift _ _ rfl, searchShift_shift]

/-- The byte of `STATUS` after an illegal command (R15, R87). -/
theorem regRead_status_setErrCmd (e : Engine) : regRead 0x09#6 e.setErrCmd = statusByte e.matched true :=
  regRead_status _ _ rfl

/-- Settles O53: the read returns what the first event left (`run_then_read`), which each clause then names. -/
theorem readSeesTheLatestCommandOrReset : Obligations.ReadSeesTheLatestCommandOrReset := by
  intro s off first evs tail hevs hpending
  obtain ⟨t, bs, hrun, htail, hlast⟩ := run_then_read hevs hpending
  refine ⟨t, bs, _, hrun, htail, hlast, fun h i hoff => ?ckey, fun h i hoff => ?cseed, ?fshiftShift, ?fshiftStatus,
    ?illegal, ?reset, fun h => regRead_effect_of_leavesByte h s.engine⟩
  case ckey =>
    rw [effect_of_isInstr h]
    exact regRead_deriveKey hoff s.engine
  case cseed =>
    rw [effect_of_isInstr h]
    exact regRead_recoverSeed hoff s.engine
  case fshiftShift =>
    rintro h rfl
    rw [effect_of_isInstr h, decodedEffect, regRead_shift_searchShift, shiftByte_toNat]
  case fshiftStatus =>
    rintro h rfl
    rw [effect_of_isInstr h, decodedEffect, regRead_status_searchShift]
    exact ⟨statusByte_bit_zero _ _, statusByte_bit_one _ _⟩
  case illegal =>
    rintro h rfl
    rw [effect_of_isIllegal h, regRead_status_setErrCmd]
    exact ⟨statusByte_bit_zero _ _, statusByte_bit_one _ _⟩
  case reset =>
    rintro rfl
    exact regRead_reset off

end Sys2Proof.Machine
end

section
/-!
PROOFS. The assembler's loads and reads (R55): a load writes the bytes of one register in any order, a read returns them in index
order; the two readings of an address text (R56).
-/
namespace Sys2Proof.Machine

/-! ## Writing a vector byte by byte -/

/-- The vector after its bytes at the listed indices were overwritten by those of `bs`. -/
def writeBytes {n : Nat} (bs : Vector Byte n) (l : List (Fin n)) (v : Vector Byte n) : Vector Byte n :=
  l.foldl (fun v (i : Fin n) => v.set i bs[i]) v

theorem getElem_writeBytes {n : Nat} (bs : Vector Byte n) (l : List (Fin n)) (v : Vector Byte n) (k : Fin n) :
    (writeBytes bs l v)[k] = if k ∈ l then bs[k] else v[k] := by
  induction l generalizing v with
  | nil => rfl
  | cons i l ih =>
    rw [writeBytes, List.foldl_cons, ← writeBytes, ih]
    by_cases hk : k = i
    · simp [hk]
    · simp [hk, Fin.val_ne_iff.2 (Ne.symm hk)]

/-- When every index is written, the old bytes are gone. -/
theorem writeBytes_of_forall_mem {n : Nat} {l : List (Fin n)} (h : ∀ i, i ∈ l) (bs v : Vector Byte n) :
    writeBytes bs l v = bs :=
  Vector.ext fun k hk => (getElem_writeBytes bs l v ⟨k, hk⟩).trans (if_pos (h _))

/-! ## Loads -/

/-- `LD8` as a register update. -/
def Engine.setAddr (e : Engine) (a : Address) : Engine := { e with addr := a }

/-- The 16-byte register that `LD16` and `RD16` name. -/
def BlockReg.get : BlockReg → Engine → Block
  | .seed => Engine.seed
  | .key => Engine.key

/-- `LD16` as a register update. -/
def BlockReg.set : BlockReg → Engine → Block → Engine
  | .seed => Engine.setSeed
  | .key => Engine.setKey

/-- The event `write i` stores byte `i` of `bs` in the register that `set` updates, and returns nothing. -/
structure IsLoad {n : Nat} (write : Fin n → HostEvent) (set : Engine → Vector Byte n → Engine) (bs : Vector Byte n) :
    Prop where
  effect (i : Fin n) (e : Engine) (v : Vector Byte n) : (write i).effect (set e v) = set e (v.set i bs[i])
  response (i : Fin n) (e : Engine) : (write i).response e = none

section
variable {n : Nat} {write : Fin n → HostEvent} {set : Engine → Vector Byte n → Engine} {bs : Vector Byte n}

theorem IsLoad.effectAll_map (h : IsLoad write set bs) (l : List (Fin n)) (e : Engine) (v : Vector Byte n) :
    effectAll (l.map write) (set e v) = set e (writeBytes bs l v) := by
  induction l generalizing v with
  | nil => rfl
  | cons i l ih => rw [List.map_cons, effectAll_cons, h.effect, ih, writeBytes, writeBytes, List.foldl_cons]

theorem IsLoad.responseAll_map (h : IsLoad write set bs) (l : List (Fin n)) (e : Engine) :
    responseAll (l.map write) e = [] := by
  induction l generalizing e with
  | nil => rfl
  | cons i l ih => rw [List.map_cons, responseAll_cons, h.response, ih, Option.toList_none, List.append_nil]

/-- The writes of a load in any order are the writes of the indices in some order that misses none. -/
theorem exists_indices_of_perm {evs : List HostEvent} (hperm : evs.Perm ((List.finRange n).map write)) :
    ∃ l : List (Fin n), evs = l.map write ∧ ∀ i, i ∈ l := by
  obtain ⟨l, hmap, hl⟩ := (congrFun₂ (List.eq_map_comp_perm write) evs (List.finRange n)).mpr hperm
  exact ⟨l, hmap, fun i => hl.mem_iff.2 (List.mem_finRange i)⟩

/-- A load in any order makes the register the listed bytes (R55). -/
theorem IsLoad.effectAll_perm (h : IsLoad write set bs) {evs : List HostEvent}
    (hperm : evs.Perm ((List.finRange n).map write)) (e : Engine) (v : Vector Byte n) :
    effectAll evs (set e v) = set e bs := by
  obtain ⟨l, rfl, hl⟩ := exists_indices_of_perm hperm
  rw [h.effectAll_map, writeBytes_of_forall_mem hl]

/-- A load in any order returns no byte. -/
theorem IsLoad.responseAll_perm (h : IsLoad write set bs) {evs : List HostEvent}
    (hperm : evs.Perm ((List.finRange n).map write)) (e : Engine) : responseAll evs e = [] := by
  obtain ⟨l, rfl, -⟩ := exists_indices_of_perm hperm
  exact h.responseAll_map l e

end

/-- A number below 64 is the number of its offset. -/
theorem offset_toNat {n : Nat} (h : n < 64) : (BitVec.ofNat 6 n).toNat = n :=
  (BitVec.toNat_ofNat n 6).trans (Nat.mod_eq_of_lt h)

/-- The transaction of a write to an operand offset is that write, and returns nothing. -/
theorem instrEvent_hwr_operand {off : Offset} (hop : operandOffset off = true) (v : Byte) (e : Engine) :
    (instrEvent (.hwr off v)).effect e = regWrite off v e ∧ (instrEvent (.hwr off v)).response e = none := by
  have hwf : (Instr.hwr off v).wellFormed = true := bne_iff_ne.2 (ne_cmd_of_operandOffset hop)
  exact ⟨instrEvent_effect hwf e, instrEvent_response hwf e⟩

theorem isLoad_ld8 (bs : Address) :
    IsLoad (fun i : Fin 8 => instrEvent (.hwr (BitVec.ofNat 6 i.val) bs[i])) Engine.setAddr bs := by
  have hoff (i : Fin 8) : (BitVec.ofNat 6 i.val).toNat = i.val := offset_toNat (by omega)
  have hop (i : Fin 8) := (operandOffset_iff (BitVec.ofNat 6 i.val)).2 (by rw [hoff]; omega)
  refine ⟨fun i e v => ?_, fun i e => (instrEvent_hwr_operand (hop i) bs[i] e).2⟩
  rw [(instrEvent_hwr_operand (hop i) bs[i] _).1, regWrite_addr _ _ _ i (hoff i)]
  rfl

theorem isLoad_ld16 (r : BlockReg) (bs : Block) :
    IsLoad (fun i : Fin 16 => instrEvent (.hwr (BitVec.ofNat 6 (r.base + i.val)) bs[i])) r.set bs := by
  have hbase : r.base = 0x10 ∨ r.base = 0x20 := by cases r <;> decide
  have hoff (i : Fin 16) : (BitVec.ofNat 6 (r.base + i.val)).toNat = r.base + i.val := offset_toNat (by omega)
  have hop (i : Fin 16) := (operandOffset_iff (BitVec.ofNat 6 (r.base + i.val))).2 (by rw [hoff]; omega)
  refine ⟨fun i e v => ?_, fun i e => (instrEvent_hwr_operand (hop i) bs[i] e).2⟩
  rw [(instrEvent_hwr_operand (hop i) bs[i] _).1]
  cases r with
  | seed => exact regWrite_seed _ _ _ i (hoff i)
  | key => exact regWrite_key _ _ _ i (hoff i)

theorem effectAll_ld8 {bs : Address} {evs : List HostEvent} (hperm : evs.Perm (expandLd8 bs)) (e : Engine) :
    effectAll evs e = e.setAddr bs :=
  (isLoad_ld8 bs).effectAll_perm hperm e e.addr

theorem responseAll_ld8 {bs : Address} {evs : List HostEvent} (hperm : evs.Perm (expandLd8 bs)) (e : Engine) :
    responseAll evs e = [] :=
  (isLoad_ld8 bs).responseAll_perm hperm e

theorem BlockReg.set_get (r : BlockReg) (e : Engine) : r.set e (r.get e) = e := by
  cases r <;> rfl

theorem effectAll_ld16 {r : BlockReg} {bs : Block} {evs : List HostEvent} (hperm : evs.Perm (expandLd16 r bs))
    (e : Engine) : effectAll evs e = r.set e bs := by
  rw [← (isLoad_ld16 r bs).effectAll_perm hperm e (r.get e), r.set_get]

theorem responseAll_ld16 {r : BlockReg} {bs : Block} {evs : List HostEvent} (hperm : evs.Perm (expandLd16 r bs))
    (e : Engine) : responseAll evs e = [] :=
  (isLoad_ld16 r bs).responseAll_perm hperm e

/-! ## Reads -/

/-- The transaction of a read changes nothing and returns the byte of its offset (R60). -/
theorem instrEvent_hrd_effect (off : Offset) (e : Engine) : (instrEvent (.hrd off)).effect e = e :=
  instrEvent_effect (i := .hrd off) rfl e

theorem instrEvent_hrd_response (off : Offset) (e : Engine) :
    (instrEvent (.hrd off)).response e = some (regRead off e) :=
  instrEvent_response (i := .hrd off) rfl e

/-- Reads change nothing. -/
theorem effectAll_reads (offs : List Offset) (e : Engine) :
    effectAll (offs.map fun off => instrEvent (.hrd off)) e = e := by
  induction offs with
  | nil => rfl
  | cons off offs ih => rw [List.map_cons, effectAll_cons, instrEvent_hrd_effect, ih]

/-- Reads return the bytes of their offsets, in order. -/
theorem responseAll_reads (offs : List Offset) (e : Engine) :
    responseAll (offs.map fun off => instrEvent (.hrd off)) e = offs.map fun off => regRead off e := by
  induction offs with
  | nil => rfl
  | cons off offs ih =>
    rw [List.map_cons, responseAll_cons, instrEvent_hrd_response, instrEvent_hrd_effect, ih]
    rfl

theorem expandRd8_eq_reads :
    expandRd8 = ((List.range 8).map (BitVec.ofNat 6)).map fun off => instrEvent (.hrd off) :=
  List.map_map.symm

theorem expandRd16_eq_reads (r : BlockReg) :
    expandRd16 r = ((List.range 16).map fun i => BitVec.ofNat 6 (r.base + i)).map fun off => instrEvent (.hrd off) :=
  List.map_map.symm

@[simp] theorem effectAll_rd8 (e : Engine) : effectAll expandRd8 e = e := by
  rw [expandRd8_eq_reads, effectAll_reads]

@[simp] theorem effectAll_rd16 (r : BlockReg) (e : Engine) : effectAll (expandRd16 r) e = e := by
  rw [expandRd16_eq_reads, effectAll_reads]

/-- `RD8` returns `ADDR` in index order (R55). -/
@[simp] theorem responseAll_rd8 (e : Engine) : responseAll expandRd8 e = e.addr.toList := by
  rw [expandRd8_eq_reads, responseAll_reads]
  refine List.ext_getElem (by simp) fun i hi _ => ?_
  have hi : i < 8 := by simpa using hi
  simpa using regRead_addr e (BitVec.ofNat 6 i) ⟨i, hi⟩ (offset_toNat (by omega))

/-- `RD16` returns its register in index order (R55). -/
@[simp] theorem responseAll_rd16 (r : BlockReg) (e : Engine) : responseAll (expandRd16 r) e = (r.get e).toList := by
  rw [expandRd16_eq_reads, responseAll_reads]
  refine List.ext_getElem (by simp) fun i hi _ => ?_
  have hi : i < 16 := by simpa using hi
  cases r with
  | seed =>
    have hread := regRead_seed e (BitVec.ofNat 6 (0x10 + i)) ⟨i, hi⟩ (offset_toNat (by omega))
    simpa [BlockReg.base, BlockReg.get] using hread
  | key =>
    have hread := regRead_key e (BitVec.ofNat 6 (0x20 + i)) ⟨i, hi⟩ (offset_toNat (by omega))
    simpa [BlockReg.base, BlockReg.get] using hread

/-- A program runs to the end that `effectAll` and `responseAll` name. -/
theorem exists_run {evs : List HostEvent} {s : State} {e : Engine} {bs : List Byte}
    (heffect : effectAll evs s.engine = e) (hresponse : responseAll evs s.engine = bs) :
    ∃ t, runProgram evs s = some (t, bs) ∧ t.port.pending = s.port.pending ∧ t.engine = e := by
  obtain ⟨t, hrun, hengine, hpending⟩ := runProgram_eq evs s
  exact ⟨t, hresponse ▸ hrun, hpending, hengine.trans heffect⟩

/-- Settles O49: what a load in any order leaves and what a read returns. -/
theorem loadsInAnyOrderAndReadsInIndexOrder : Obligations.LoadsInAnyOrderAndReadsInIndexOrder := by
  have hrun {evs : List HostEvent} {s : State} {e : Engine} {bs : List Byte} (heffect : effectAll evs s.engine = e)
      (hresponse : responseAll evs s.engine = bs) : ∃ t, runProgram evs s = some (t, bs) ∧ t.engine = e := by
    obtain ⟨t, hrun, -, hengine⟩ := exists_run heffect hresponse
    exact ⟨t, hrun, hengine⟩
  exact ⟨fun bs evs s hperm => hrun (effectAll_ld8 hperm _) (responseAll_ld8 hperm _),
    fun bs evs s hperm => hrun (effectAll_ld16 hperm _) (responseAll_ld16 hperm _),
    fun bs evs s hperm => hrun (effectAll_ld16 hperm _) (responseAll_ld16 hperm _),
    fun s => hrun (effectAll_rd8 _) (responseAll_rd8 _), fun s => hrun (effectAll_rd16 .seed _) (responseAll_rd16 .seed _),
    fun s => hrun (effectAll_rd16 .key _) (responseAll_rd16 .key _)⟩

end Sys2Proof.Machine
end

section
/-!
PROOFS. The document's three calls as host programs (R57), the two readings of an address text (R56), and the window in the host's
address space (R38).
-/
namespace Sys2Proof.Machine

/-! ## What each line of a call leaves and returns (R55) -/

@[simp] theorem effectAll_expandLd8 (bs : Address) (e : Engine) : effectAll (expandLd8 bs) e = e.setAddr bs :=
  effectAll_ld8 (.refl _) e

@[simp] theorem responseAll_expandLd8 (bs : Address) (e : Engine) : responseAll (expandLd8 bs) e = [] :=
  responseAll_ld8 (.refl _) e

@[simp] theorem effectAll_expandLd16 (r : BlockReg) (bs : Block) (e : Engine) :
    effectAll (expandLd16 r bs) e = r.set e bs :=
  effectAll_ld16 (.refl _) e

@[simp] theorem responseAll_expandLd16 (r : BlockReg) (bs : Block) (e : Engine) :
    responseAll (expandLd16 r bs) e = [] :=
  responseAll_ld16 (.refl _) e

theorem shiftField_shiftByte (n : Shift) : shiftField (shiftByte n) = n := by
  refine BitVec.eq_of_toNat_eq ?_
  rw [shiftField_toNat, shiftByte_toNat]
  exact Nat.mod_eq_of_lt n.isLt

/-- The write of `LDSHIFT` sets `SHIFT` to the number given. -/
theorem effect_ldshift (n : Shift) (e : Engine) :
    (instrEvent (.hwr 0x08#6 (n.setWidth 8))).effect e = e.setShift n := by
  rw [instrEvent_effect rfl, decodedEffect, regWrite_shift _ _ _ rfl]
  exact congrArg e.setShift (shiftField_shiftByte n)

/-- The write of `LDSHIFT` and the three commands return nothing. -/
theorem response_ldshift (n : Shift) (e : Engine) :
    (instrEvent (.hwr 0x08#6 (n.setWidth 8))).response e = none := instrEvent_response rfl e

theorem response_ckey (e : Engine) : (instrEvent .ckey).response e = none := instrEvent_response rfl e
theorem response_cseed (e : Engine) : (instrEvent .cseed).response e = none := instrEvent_response rfl e
theorem response_fshift (e : Engine) : (instrEvent .fshift).response e = none := instrEvent_response rfl e

theorem effect_ckey (e : Engine) : (instrEvent .ckey).effect e = deriveKey e := instrEvent_effect rfl e
theorem effect_cseed (e : Engine) : (instrEvent .cseed).effect e = recoverSeed e := instrEvent_effect rfl e
theorem effect_fshift (e : Engine) : (instrEvent .fshift).effect e = searchShift e := instrEvent_effect rfl e

/-! ## The engine after each call -/

theorem effectAll_callComputeKey (order : AddrTextOrder) (a : Address) (seed : Block) (sh : Shift) (e : Engine) :
    effectAll (assemble order (callComputeKey a seed sh)) e =
      { e with addr := a, seed := seed, shift := sh, key := computeKey a seed sh.toNat } := by
  simp only [assemble, callComputeKey, AsmLine.expand, List.flatMap_cons, List.flatMap_nil, List.append_nil,
    effectAll_append, effectAll_expandLd8, effectAll_expandLd16, effectAll_cons, effectAll_nil, effect_ldshift,
    effect_ckey, effectAll_rd16, deriveKey]
  rfl

theorem responseAll_callComputeKey (order : AddrTextOrder) (a : Address) (seed : Block) (sh : Shift) (e : Engine) :
    responseAll (assemble order (callComputeKey a seed sh)) e = (computeKey a seed sh.toNat).toList := by
  simp [assemble, callComputeKey, AsmLine.expand, effect_ldshift, effect_ckey, response_ldshift, response_ckey,
    BlockReg.get, BlockReg.set, Engine.setAddr]

theorem effectAll_callComputeSeed (order : AddrTextOrder) (a : Address) (key : Block) (sh : Shift) (e : Engine) :
    effectAll (assemble order (callComputeSeed a key sh)) e =
      { e with addr := a, key := key, shift := sh, seed := computeSeed a key sh.toNat } := by
  simp only [assemble, callComputeSeed, AsmLine.expand, List.flatMap_cons, List.flatMap_nil, List.append_nil,
    effectAll_append, effectAll_expandLd8, effectAll_expandLd16, effectAll_cons, effectAll_nil, effect_ldshift,
    effect_cseed, effectAll_rd16, recoverSeed]
  rfl

theorem responseAll_callComputeSeed (order : AddrTextOrder) (a : Address) (key : Block) (sh : Shift) (e : Engine) :
    responseAll (assemble order (callComputeSeed a key sh)) e = (computeSeed a key sh.toNat).toList := by
  simp [assemble, callComputeSeed, AsmLine.expand, effect_ldshift, effect_cseed, response_ldshift, response_cseed,
    BlockReg.get, BlockReg.set, Engine.setAddr]

/-- Settles O46: after the loads `CKEY` derives the key of the operands, and the reads return it. -/
theorem computeKeyProgramReturnsTheKey : Obligations.ComputeKeyProgramReturnsTheKey :=
  fun order a seed sh _ =>
    exists_run (effectAll_callComputeKey order a seed sh _) (responseAll_callComputeKey order a seed sh _)

/-- Settles O47, likewise for `CSEED`. -/
theorem computeSeedProgramReturnsTheSeed : Obligations.ComputeSeedProgramReturnsTheSeed :=
  fun order a key sh _ =>
    exists_run (effectAll_callComputeSeed order a key sh _) (responseAll_callComputeSeed order a key sh _)

/-- The engine with the operands of `find_key_shift` loaded. -/
def Engine.loadBlocks (e : Engine) (a : Address) (key seed : Block) : Engine :=
  ((e.setAddr a).setKey key).setSeed seed

theorem effectAll_callFindKeyShift (order : AddrTextOrder) (a : Address) (key seed : Block) (e : Engine) :
    effectAll (assemble order (callFindKeyShift a key seed)) e = searchShift (e.loadBlocks a key seed) := by
  simp [assemble, callFindKeyShift, AsmLine.expand, effect_fshift, instrEvent_hrd_effect, BlockReg.set, Engine.loadBlocks]

theorem responseAll_callFindKeyShift (order : AddrTextOrder) (a : Address) (key seed : Block) (e : Engine) :
    responseAll (assemble order (callFindKeyShift a key seed)) e =
      [statusByte (findKeyShift a key seed).isSome e.errCmd, shiftByte ((findKeyShift a key seed).getD e.shift)] := by
  simp [assemble, callFindKeyShift, AsmLine.expand, effect_fshift, response_fshift, instrEvent_hrd_effect,
    instrEvent_hrd_response, regRead_status_searchShift, regRead_shift_searchShift, BlockReg.set, Engine.setAddr]

/-- The host reads `no match` exactly where the search found nothing (R57). -/
theorem searchResult_of_found (found : Option Shift) (c : Bool) (old : Shift) :
    searchResult [statusByte found.isSome c, shiftByte (found.getD old)] = found := by
  rw [searchResult, statusByte_bit_zero, shiftField_shiftByte]
  cases found <;> rfl

/-- Settles O48: after the loads `FSHIFT` searches over the operands, and the two reads return its outcome. -/
theorem findKeyShiftProgramReturnsTheShift : Obligations.FindKeyShiftProgramReturnsTheShift := by
  intro order a key seed s
  obtain ⟨t, hrun, hpending, hengine⟩ := exists_run (effectAll_callFindKeyShift order a key seed s.engine)
    (responseAll_callFindKeyShift order a key seed s.engine)
  refine ⟨t, _, hrun, searchResult_of_found _ _ _, hpending, ?_⟩
  rw [hengine, searchShift_addr, searchShift_key, searchShift_seed, searchShift_errCmd]
  exact ⟨rfl, rfl, rfl, rfl⟩

/-! ## The text of an address (R56) -/

theorem addrOfText_reversed (t0 t1 t2 t3 t4 t5 t6 t7 : Byte) :
    addrOfText .reversed #v[t0, t1, t2, t3, t4, t5, t6, t7] = #v[t7, t6, t5, t4, t3, t2, t1, t0] := rfl

/-- Settles O50: `LDADDRTXT` is the `LD8` of the bytes the text stands for, and no other line reads the order. -/
theorem addressTextOrder : Obligations.AddressTextOrder := by
  refine ⟨fun ts => rfl, fun t0 t1 t2 t3 t4 t5 t6 t7 => ?_, fun o o' l hl => ?_⟩
  · exact congrArg expandLd8 (addrOfText_reversed t0 t1 t2 t3 t4 t5 t6 t7)
  · cases l with
    | ldaddrtxt ts => exact absurd rfl (hl ts)
    | _ => rfl

/-! ## The host's address space (R38) -/

/-- `BASE + off` selects the offset `off`. -/
theorem selectOffset_base_add (base : Nat) (off : Offset) : selectOffset base (base + off.toNat) = some off := by
  have hinside : base ≤ base + off.toNat ∧ base + off.toNat < base + 64 := by omega
  rw [selectOffset, if_pos hinside, Nat.add_sub_cancel_left, BitVec.ofNat_toNat, BitVec.setWidth_eq]

/-- An address outside the window selects nothing. -/
theorem selectOffset_outside {base hostAddr : Nat} (h : hostAddr < base ∨ base + 63 < hostAddr) :
    selectOffset base hostAddr = none :=
  if_neg (by omega)

/-- Settles O51: inside the window an access is one transaction, outside it is none. -/
theorem baseSelectsTheWindow : Obligations.BaseSelectsTheWindow := by
  refine ⟨fun s off we v => ?_, fun s hostAddr we v h => ?_⟩
  · rw [State.issueAccess, accessEvents, selectOffset_base_add]
  · rw [State.issueAccess, accessEvents, selectOffset_outside h, State.issue, List.append_nil]
    rfl

end Sys2Proof.Machine
end
